-- ==== Sys2Proof/Word.lean ====
section
/-! DEFINITION. The words of the encoder (spec/00_scope.md R6 to R10): the 64-bit value, the byte, the 7-bit group and
the 65-bit command word. All their arithmetic is that of `BitVec`, whose bit 0 is the least significant, as R10 has it:
`>>>` is the logical right shift of R11 and `a ++ b` is the concatenation of R10 with `a` in the more significant place. -/

namespace Sys2Proof

/-- A value of `XLEN = 64` bits (R6): the operand, the transformed value, the working value. -/
abbrev Word := BitVec 64

/-- An output byte, `BYTE = 8` bits (R7). -/
abbrev Byte := BitVec 8

/-- A payload group, `GROUP = 7` bits (R7). -/
abbrev Payload := BitVec 7

/-- A command word `{cmd_op, cmd_value}`, 65 bits (spec/30_encoding.md R60). -/
abbrev CmdWord := BitVec 65

end Sys2Proof
end

