-- ==== Sys2Proof/Config.lean ====
section
/-! DEFINITION. What is fixed for the block (spec/00_scope.md R6 to R9), the two parameters the spec leaves open (R9, P1,
P2), and the free values: the inputs a host drives at an edge that no schedule in the state fixes (log entry 2). -/

namespace Sys2Proof.Config

/-- `MAXLEN` of R8: the capacity of the result buffer. -/
abbrev maxLen : Nat := 10

/-- `GROUP` of R7: payload bits per byte. -/
abbrev group : Nat := 7

/-- `BYTE` of R7: bits per output byte. -/
abbrev byteBits : Nat := 8

/-- `LENW` of R9: the width of `rsp_len`. -/
abbrev lenWidth : Nat := 4

/-- `DATAW = MAXLEN * BYTE` of R9: the width of `rsp_data`. -/
abbrev dataWidth : Nat := 80

/-- `T_CLK` (R9, P1): the clock period. OPEN in the spec; no rule and no definition of the model depends on it. -/
opaque tClk : Nat

/-- How far `RESET_MIN_STEPS` exceeds 1 (P2). OPEN in the spec. -/
opaque resetStepsPastOne : Nat

/-- `RESET_MIN_STEPS` (R9, P2): the least number of reset steps the platform must give, "constrained only to be at
least 1". No definition of the model depends on it. -/
def resetMinSteps : Nat := resetStepsPastOne + 1

/-! The host's free choice at edge `k` of the five input ports (spec/10_state.md R27, R28: "Input values are
unconstrained"). Constants without a body: nothing can be proved of a value of theirs. -/

/-- `rst` at edge `k`. -/
opaque freeRst : Nat → Bool

/-- `cmd_valid` at edge `k`. -/
opaque freeCmdValid : Nat → Bool

/-- `cmd_op` at edge `k`. -/
opaque freeCmdOp : Nat → BitVec 1

/-- `cmd_value` at edge `k`. -/
opaque freeCmdValue : Nat → Word

/-- `rsp_ready` at edge `k`. -/
opaque freeRspReady : Nat → Bool

end Sys2Proof.Config
end

