-- ==== Sys2Proof/Syntax.lean ====
section
/-! DEFINITION. The operation set (spec/30_encoding.md R64): exactly two operations, one constructor per row of
spec/opcode_table.json. -/

namespace Sys2Proof

/-- A command (spec/30_encoding.md R60 to R64). Its one operand is the 64-bit pattern on `cmd_value`. -/
inductive Instr where
  /-- `ENCU v` (R110; the source's `encodeUnsigned`, `int2str`): `v` is read as an unsigned number. -/
  | encu (v : Word)
  /-- `ENCS v` (R125; the source's `encodeSigned`, `sint2str`): `v` is read as a two's-complement number. -/
  | encs (v : Word)
  deriving DecidableEq, Repr

end Sys2Proof
end

