-- ==== Sys2Proof/WellFormed.lean ====
section
/-! DEFINITION. Which commands are well formed (all of them: spec/30_encoding.md R63), and which literals of the textual
form spell a command (R72: "A literal outside the operation's range spells no command"). -/

namespace Sys2Proof

/-- R63: "Every one of the 2^65 command words is legal and has a defined result." The operand is exactly as wide as its
domain (spec/60_exceptions.md R153), so no `Instr` can be ill formed; the checks are those on literals below. -/
def Instr.wellFormed : Instr → Bool
  | .encu _ => true
  | .encs _ => true

/-- A command as R72 writes it in one line: the mnemonic and its literal, decimal or hexadecimal. -/
inductive CommandText where
  /-- `ENCU <unsigned literal>`; decimal and `0x` spell the same number. -/
  | encu (literal : Nat)
  /-- `ENCS <signed literal>` in decimal, which "may carry a minus sign". -/
  | encsDecimal (literal : Int)
  /-- `ENCS 0x...`: the literal "is the 64-bit two's-complement pattern". -/
  | encsHex (literal : Nat)
  deriving DecidableEq, Repr

/-- Does the literal lie in the operation's range (R62, R72)? -/
def CommandText.wellFormed : CommandText → Bool
  | .encu n => decide (n < 2 ^ 64)
  | .encsDecimal s => decide (-2 ^ 63 ≤ s) && decide (s < 2 ^ 63)
  | .encsHex n => decide (n < 2 ^ 64)

/-- The command a line spells, if its literal is in range (R72). -/
def CommandText.toInstr (c : CommandText) : Option Instr :=
  if c.wellFormed then
    match c with
    | .encu n => some (.encu (BitVec.ofNat 64 n))
    | .encsDecimal s => some (.encs (BitVec.ofInt 64 s))
    | .encsHex n => some (.encs (BitVec.ofNat 64 n))
  else none

end Sys2Proof
end

