-- ==== Sys2Proof/Decode.lean ====
section
/-! DEFINITION. Decoding and encoding command words (spec/30_encoding.md R60 to R64). A command is one word of 65 bits on
two ports; the block never sees it as bytes (spec/20_memory.md R45). -/

namespace Sys2Proof

/-- Field `op`, bit 64 (R60). -/
def opField (w : CmdWord) : BitVec 1 := w.extractLsb' 64 1

/-- Field `value`, bits 63:0 (R60). -/
def valueField (w : CmdWord) : Word := w.setWidth 64

/-- The command word `{cmd_op, cmd_value}` (R60). -/
def cmdWord (op : BitVec 1) (value : Word) : CmdWord := op ++ value

/-- R61: `op` 0 selects `ENCU`, 1 selects `ENCS`. Total: "A decoder of command words is total and never answers
'invalid'" (R63). -/
def decodeWord (w : CmdWord) : Instr :=
  if opField w = 1#1 then .encs (valueField w) else .encu (valueField w)

/-- Why a number is no command word. -/
inductive DecodeError where
  /-- It has a bit above bit 64: the ports carry 65 bits, and there is no wire for it (log entry 8; safe). -/
  | widerThanCommand
  deriving DecidableEq, Repr

/-- Decode any number, rejecting by name what is no 65-bit command word. -/
def decode (bits : Nat) : Except DecodeError Instr :=
  if bits < 2 ^ 65 then .ok (decodeWord (BitVec.ofNat 65 bits)) else .error .widerThanCommand

/-- The word of a command, written from the rows of R64. -/
def encode : Instr → CmdWord
  | .encu v => cmdWord 0#1 v
  | .encs v => cmdWord 1#1 v

/-- The rows of R64 as the opcode table has them: a command word `w` selects the row with `w &&& mask = match`. -/
def encuMatch : CmdWord := 0x00000000000000000#65

/-- The match value of the `ENCS` row (R64). -/
def encsMatch : CmdWord := 0x10000000000000000#65

/-- The mask of both rows (R64). -/
def opMask : CmdWord := 0x10000000000000000#65

/-- Does the word select the row with this match value (R64)? -/
def selectsRow (rowMatch w : CmdWord) : Bool := (w &&& opMask) == rowMatch

/-- The command whose bits are `w`, numbered as spec/opcode_table.json numbers them, the bits from `nbits` on being 0.
The table's row has 65 bits, 72 in whole bytes: a number with one of the seven bits above bit 64 set is refused. -/
def decodeTableWord (nbits w : Nat) : Option Instr :=
  (decode (w % 2 ^ nbits)).toOption

end Sys2Proof
end

