-- ==== Sys2Proof/Machine/State.lean ====
section
/-! DEFINITION. The state of the block (spec/10_state.md R20 to R25), the input ports of a step (R27), the reset state
(R36), and the reasons a step can stop. -/

namespace Sys2Proof.Machine

/-- `PHASE` (R25). The encoding `0b11` is unreachable and left out of the type, as R35 allows. -/
inductive Phase where
  /-- No command in hand; a command presented now is accepted. -/
  | idle
  /-- A command is being encoded; each step emits one byte. -/
  | run
  /-- The result is complete and shown on the result ports until taken. -/
  | done
  deriving DecidableEq, Repr

/-- The two bits of the phase register (R25). -/
def Phase.bits : Phase → BitVec 2
  | .idle => 0b00#2
  | .run => 0b01#2
  | .done => 0b10#2

/-- The input ports, sampled at a step (R27). -/
structure Input where
  /-- `rst`: synchronous reset, active high. -/
  rst : Bool
  /-- `cmd_valid`: the host presents a command at this step. -/
  cmdValid : Bool
  /-- `cmd_op`: 0 is `ENCU`, 1 is `ENCS`. -/
  cmdOp : BitVec 1
  /-- `cmd_value`: the operand. -/
  cmdValue : Word
  /-- `rsp_ready`: the host takes the result at this step, if one is shown. -/
  rspReady : Bool
  deriving DecidableEq, Repr

/-- The complete state `S = (PHASE, W, BUF, LEN)` of the block (R20). -/
structure Block where
  /-- `PHASE` (R25). -/
  phase : Phase
  /-- `W`, the working value (R21). -/
  w : Word
  /-- `BUF[0..9]`, the result buffer (R22). -/
  buf : Vector Byte 10
  /-- `LEN`, the byte count, 0 to 10 (R23); the encodings 11 to 15 are unreachable and left out of the type (R35). -/
  len : Fin 11
  deriving DecidableEq, Repr

/-- `S_reset` (R36). -/
def Block.reset : Block where
  phase := .idle
  w := 0#64
  buf := Vector.replicate 10 0x00#8
  len := 0

/-- The state of the model: the block's, and the model's own record of what its host will drive (log entries 1 to 3). -/
structure State extends Block where
  /-- The MODEL'S own field: the input values of the coming clock edges, nearest first; any schedule is allowed. -/
  host : List Input
  /-- The MODEL'S own field: the number of clock edges passed, the argument of the free inputs past the schedule. -/
  edge : Nat
  deriving DecidableEq, Repr

/-- There is no fault: "The set of synchronous exceptions is empty" (spec/60_exceptions.md R150). No constructor, so that
no step can fault; nothing about this is unsafe. -/
inductive Fault where
  deriving DecidableEq, Repr

/-- Why a step has no next state. -/
inductive Refusal where
  /-- An operation with no meaning in the model; raised by an arm of `exec` only, and no arm raises it. Safe. -/
  | notModelled (mnemonic : String)
  /-- A run step with `LEN = 10`: raised by `runStep`. "A RUN step is never taken with LEN = 10" (R33), the spec gives no
  next state there, and no run from reset reaches it. Safe: the model stops where the spec says nothing (log entry 5). -/
  | bufferFull
  deriving DecidableEq, Repr

/-- The machine right after reset (R36), with no input scheduled and no edge passed (log entry 3). -/
def State.reset : State := { Block.reset with host := [], edge := 0 }

end Sys2Proof.Machine
end

