-- ==== Sys2Proof/Machine/Flags.lean ====
section
/-! DEFINITION. The block has no status flags and no condition codes (spec/10_state.md R26). What stands in their place is
the continuation bit, which is part of each output byte, and the zero test it is made of (R26, R88). -/

namespace Sys2Proof.Machine

/-- `a != 0` as a 1-bit value (spec/00_scope.md R11): the test "remaining value is nonzero" (R26). -/
def nonzero (a : Word) : BitVec 1 := BitVec.ofBool (a != 0#64)

/-- The output byte `{c, g}` of format `VB` (spec/30_encoding.md R65): bit 7 the continuation bit, bits 6:0 the payload. -/
def varintByte (c : BitVec 1) (g : Payload) : Byte := c ++ g

end Sys2Proof.Machine
end

