-- ==== Sys2Proof/Machine/Operands.lean ====
section
/-! DEFINITION. The two readings of the one operand (spec/30_encoding.md R62) and the zigzag transform
(spec/42_encs.md R120 to R122). There is no other operand form: no register, no immediate, no addressing mode (R60). -/

namespace Sys2Proof.Machine

/-- `signed_64(v)`, the two's-complement reading (spec/00_scope.md R10): `v` if bit 63 is clear, else `v - 2^64`. -/
def signed64 (v : Word) : Int := if v.msb then (v.toNat : Int) - 2 ^ 64 else v.toNat

/-- The transform of a signed number, in the integers without any width limit (R120). -/
def zigzagInt (s : Int) : Int := if s < 0 then 2 * ((-s) - 1) + 1 else 2 * s

/-- `zigzag64(v)` (R120): the transform of the number `v` means; it always fits 64 bits, `INT64_MIN` included (R122). -/
def zigzag64 (v : Word) : Word := BitVec.ofInt 64 (zigzagInt (signed64 v))

/-- The bit-level form of R121, the datapath of the hardware: `(v << 1) ^ (v[63] ? all ones : 0)`. -/
def zigzagBits (v : Word) : Word := (v <<< 1) ^^^ (if v.msb then 0xFFFFFFFFFFFFFFFF#64 else 0#64)

/-- The transformed value of `ENCU`: the operand as it is (R62, R110). -/
def unsignedOperand (v : Word) : Word := v

/-- The transformed value of `ENCS` (R62, R125). -/
def signedOperand (v : Word) : Word := zigzag64 v

/-- The transformed value `t` of the command `(op, v)` (spec/40_packer_and_sequencer.md R92). -/
def transformed (op : BitVec 1) (v : Word) : Word :=
  if op = 1#1 then signedOperand v else unsignedOperand v

end Sys2Proof.Machine
end

