-- ==== Sys2Proof/Machine/Packer.lean ====
section
/-! DEFINITION. What the packer computes, as functions of a 64-bit value (spec/40_packer_and_sequencer.md Part 1, R80 to
R88). Only `pack` is hardware; the others say what a whole result is. -/

namespace Sys2Proof.Machine

/-- `group(t, i) = (t >> 7i) mod 128` (R80). -/
def group (t : Word) (i : Nat) : Payload := (t >>> (7 * i)).setWidth 7

/-- `rest(t, i) = t >> 7(i+1)`: what is left after groups 0 to `i` (R82). -/
def rest (t : Word) (i : Nat) : Word := t >>> (7 * (i + 1))

/-- `cont(t, i)`: 1 when something is left after group `i` (R82). -/
def cont (t : Word) (i : Nat) : BitVec 1 := nonzero (rest t i)

/-- `bitlen(t)` (R83): 0 for 0, else the position of the highest 1 bit plus one. -/
def bitlen (t : Word) : Nat := if t = 0#64 then 0 else Nat.log2 t.toNat + 1

/-- `nbytes(t) = max(1, ceil(bitlen(t) / 7))` (R84). -/
def nbytes (t : Word) : Nat := max 1 ((bitlen t + 6) / 7)

/-- Byte `i` of the varint of `t`: `{cont(t, i), group(t, i)}` (R86). -/
def varintAt (t : Word) (i : Nat) : Byte := varintByte (cont t i) (group t i)

/-- `varint(t)` (R86): the byte list both operations deliver. -/
def varint (t : Word) : List Byte := (List.range (nbytes t)).map (varintAt t)

/-- The results of one packer iteration (R88). -/
structure Packed where
  /-- The 7-bit group just extracted. -/
  b : Payload
  /-- The remaining value, the next working value. -/
  w : Word
  /-- The continuation bit. -/
  c : BitVec 1
  deriving DecidableEq, Repr

/-- `pack(w)` (R88): the whole datapath of the packer. -/
def pack (w : Word) : Packed where
  b := w.setWidth 7
  w := w >>> 7
  c := nonzero (w >>> 7)

/-- The output byte of an iteration, `{c, b}` (R88). -/
def Packed.byte (p : Packed) : Byte := varintByte p.c p.b

/-- The source's loop (R87), for at most `fuel` iterations: extract, shift, append with the high bit set while something
is left, else append and stop. -/
def packLoop : (fuel : Nat) → Word → List Byte
  | 0, _ => []
  | fuel + 1, w =>
    if w >>> 7 = 0#64 then [varintByte 0#1 (w.setWidth 7)]
    else varintByte 1#1 (w.setWidth 7) :: packLoop fuel (w >>> 7)

/-- `ENCU(v) = varint(v)` (spec/41_encu.md R110), the source's `encodeUnsigned`. -/
def encodeUnsigned (v : Word) : List Byte := varint (unsignedOperand v)

/-- `ENCS(v) = varint(zigzag64(v))` (spec/42_encs.md R125), the source's `encodeSigned`. -/
def encodeSigned (v : Word) : List Byte := varint (signedOperand v)

/-- The result of the command `(op, v)` as a byte list (R99, spec/43_properties_and_inverse.md R141). -/
def resultOf (op : BitVec 1) (v : Word) : List Byte := if op = 1#1 then encodeSigned v else encodeUnsigned v

end Sys2Proof.Machine
end

