-- ==== Sys2Proof/Machine/Ops.lean ====
section
/-! DEFINITION. The named operations over the state: sampling the input ports, passing an edge, and the four writes that
exist (spec/20_memory.md R41, spec/40_packer_and_sequencer.md R92 to R94): reset, load, emit, retire. There is no
operation that takes an exception and none that returns from one: no trap mechanism exists (spec/60_exceptions.md R150,
R156, R157). -/

namespace Sys2Proof.Machine

/-- The inputs a host drives at edge `k` when no schedule fixes them: free values (log entry 2). -/
def freeInput (k : Nat) : Input where
  rst := Config.freeRst k
  cmdValid := Config.freeCmdValid k
  cmdOp := Config.freeCmdOp k
  cmdValue := Config.freeCmdValue k
  rspReady := Config.freeRspReady k

/-- The input values at the edge `k` edges ahead (`k = 0`: the coming one): scheduled, or free past the schedule. -/
def State.inputAt (s : State) (k : Nat) : Input := (s.host[k]?).getD (freeInput (s.edge + k))

/-- The input values sampled at the coming edge (R27). -/
def State.input (s : State) : Input := s.inputAt 0

/-- The command word on the command port, `{cmd_op, cmd_value}` (R60). -/
def Input.word (i : Input) : CmdWord := cmdWord i.cmdOp i.cmdValue

/-- The edge passes: its inputs are used up. The block's own state is untouched. -/
def State.tick (s : State) : State := { s with host := s.host.tail, edge := s.edge + 1 }

/-- Every element of the block takes its reset value (R36, R170). -/
def State.clear (s : State) : State := { s with toBlock := Block.reset }

/-- The writes of an accept step (R92): `W` takes the transformed value, all ten bytes of `BUF` and `LEN` are cleared. -/
def State.load (t : Word) (s : State) : State :=
  { s with phase := .run, w := t, buf := Vector.replicate 10 0x00#8, len := 0 }

/-- `BUF[LEN] <- {c, b}`, `LEN <- LEN + 1`, `W <- w'` and the phase change of a run step, all read from the state at the
start of the step (R93, R155 (c)). -/
def State.emit (s : State) (h : s.len.val < 10) : State :=
  let p := pack s.w
  { s with
    buf := s.buf.set s.len.val p.byte h
    len := ⟨s.len.val + 1, Nat.succ_lt_succ h⟩
    w := p.w
    phase := if p.c = 1#1 then .run else .done }

/-- The result is retired: only the phase changes (R94). -/
def State.retire (s : State) : State := { s with phase := .idle }

/-- A command with transformed value `t` is on the command port, `rst = 0`: it is accepted in `IDLE` (R92), and in `RUN`
and `DONE` it is ignored and does nothing to the state (R93, R94; log entry 4). -/
def accept (t : Word) (s : State) : Host.Outcome State Fault Refusal :=
  match s.phase with
  | .idle => .next (s.load t)
  | .run => .next s
  | .done => .next s

end Sys2Proof.Machine
end

