-- ==== Sys2Proof/Machine/Encs.lean ====
section
/-! DEFINITION. The signed family (spec/42_encs.md): one operation. -/

namespace Sys2Proof.Machine

/-- `ENCS v` (R125): the accept step with `t = zigzag64(v)`; "After the accept step nothing in the block knows which
operation the command was". -/
def execEncs (v : Word) (s : State) : Host.Outcome State Fault Refusal := accept (signedOperand v) s

end Sys2Proof.Machine
end

