-- ==== Sys2Proof/Machine/Encu.lean ====
section
/-! DEFINITION. The unsigned family (spec/41_encu.md): one operation. -/

namespace Sys2Proof.Machine

/-- `ENCU v` (R110): the accept step with `t = v`; the run steps that follow are the machine's own (R93). -/
def execEncu (v : Word) (s : State) : Host.Outcome State Fault Refusal := accept (unsignedOperand v) s

end Sys2Proof.Machine
end

