-- ==== Sys2Proof/Machine/Dispatch.lean ====
section
/-! DEFINITION. The meaning of each operation (spec/30_encoding.md R64), one arm per row of the opcode table. -/

namespace Sys2Proof.Machine

/-- The meaning of a command on the command port at an edge with `rst = 0`. -/
def exec (i : Instr) (s : State) : Host.Outcome State Fault Refusal :=
  match i with
  | .encu v => Sys2Proof.Machine.execEncu v s
  | .encs v => Sys2Proof.Machine.execEncs v s

end Sys2Proof.Machine
end

