-- ==== Sys2Proof/Machine/Sequencer.lean ====
section
/-! DEFINITION. The sequencer (spec/40_packer_and_sequencer.md Part 2, R90 to R95): what one clock edge does in each
phase, given the meaning of a command, and how a command is placed on the command port. -/

namespace Sys2Proof.Machine

/-- `IDLE` with `rst = 0` (R91, R92): the command presented, if one is, is decoded and run. -/
def idleStep (run : Instr → State → Host.Outcome State Fault Refusal) (i : Input) (s : State) :
    Host.Outcome State Fault Refusal :=
  if i.cmdValid then run (decodeWord i.word) s else .next s

/-- `RUN` with `rst = 0` (R93): one iteration of the packer. With `LEN = 10`, which no run reaches (R33), there is no byte
to write and the spec gives no next state. -/
def runStep (s : State) : Host.Outcome State Fault Refusal :=
  if h : s.len.val < 10 then .next (s.emit h) else .refused .bufferFull

/-- `DONE` with `rst = 0` (R94): hold the result, or retire it. -/
def doneStep (i : Input) (s : State) : Host.Outcome State Fault Refusal :=
  if i.rspReady then .next s.retire else .next s

/-- One rising edge of the clock (R95). Reset has priority over everything; then the phase decides. -/
def clockEdge (run : Instr → State → Host.Outcome State Fault Refusal) (s : State) :
    Host.Outcome State Fault Refusal :=
  if s.input.rst then .next s.tick.clear
  else
    match s.phase with
    | .idle => idleStep run s.input s.tick
    | .run => runStep s.tick
    | .done => doneStep s.input s.tick

/-- The inputs of an edge at which the host presents the command word `w` and nothing else. -/
def presents (w : CmdWord) : Input where
  rst := false
  cmdValid := true
  cmdOp := opField w
  cmdValue := valueField w
  rspReady := false

/-- `s` with the command `w` on the command port at the coming edge and the block in `IDLE`, the one phase in which the
next edge takes a command from the port (R92; log entry 7). What the host drives at later edges stays as it was. -/
def placeCommand (s : State) (w : CmdWord) : State :=
  { s with phase := .idle, host := presents w :: s.host.tail }

end Sys2Proof.Machine
end

