-- ==== Sys2Proof/Machine/Step.lean ====
section
/-! DEFINITION. One step of the machine: one rising edge of the clock (spec/00_scope.md R13). -/

namespace Sys2Proof.Machine

/-- `step(S, in)` (R95), the inputs taken from the state's schedule. -/
def step (s : State) : Host.Outcome State Fault Refusal := clockEdge exec s

/-- `s` with the command whose bits are `w` placed where `step` takes its next command from: the command port (log entry
7). A number that is no command word places nothing. -/
def State.withFetchWord (s : State) (nbits w : Nat) : State :=
  match decodeTableWord nbits w with
  | some i => placeCommand s (encode i)
  | none => s

end Sys2Proof.Machine
end

