-- ==== Sys2Proof/Machine/Outputs.lean ====
section
/-! DEFINITION. The output ports (spec/10_state.md R29): functions of the state at the start of the step, with no side
effect (spec/20_memory.md R49); and what a host can tell from them (spec/70_reset_and_hazards.md R179). -/

namespace Sys2Proof.Machine

/-- `cmd_ready` (R29). -/
def Block.cmdReady (b : Block) : Bool := b.phase == .idle

/-- `rsp_valid` (R29). -/
def Block.rspValid (b : Block) : Bool := b.phase == .done

/-- `{BUF[9], ..., BUF[0]}`: byte `i` in lane `8i+7 : 8i` (R29, R43). -/
def Block.bus (b : Block) : BitVec 80 :=
  b.buf[9] ++ b.buf[8] ++ b.buf[7] ++ b.buf[6] ++ b.buf[5] ++ b.buf[4] ++ b.buf[3] ++ b.buf[2] ++ b.buf[1] ++ b.buf[0]

/-- `rsp_len` (R29). -/
def Block.rspLen (b : Block) : BitVec 4 := if b.rspValid then BitVec.ofNat 4 b.len.val else 0#4

/-- `rsp_data` (R29). -/
def Block.rspData (b : Block) : BitVec 80 := if b.rspValid then b.bus else 0#80

/-- Lane `i` of a result bus, bits `8i+7 : 8i` (R43). -/
def lane (d : BitVec 80) (i : Nat) : Byte := d.extractLsb' (8 * i) 8

/-- The byte sequence a host reads: the first `rsp_len` lanes of `rsp_data` (R48, R67). -/
def Block.shownBytes (b : Block) : List Byte := (List.range b.rspLen.toNat).map (lane b.rspData)

/-- A command is accepted at the coming edge (R179). -/
def State.accepts (s : State) : Bool := !s.input.rst && s.input.cmdValid && s.cmdReady

/-- A result is retired at the coming edge (R179). -/
def State.retires (s : State) : Bool := !s.input.rst && s.input.rspReady && s.rspValid

end Sys2Proof.Machine
end

