-- ==== Sys2Proof/Machine/Properties.lean ====
section
/-! DEFINITION. The inverse functions of spec/43_properties_and_inverse.md (R130 to R132): "specification only, not
hardware", to state the round trips. -/

namespace Sys2Proof.Machine

/-- `unvarint(L)` (R130): the payloads laid down least significant group first, continuation bits stripped. -/
def unvarint : List Byte → Nat
  | [] => 0
  | b :: bs => (b.setWidth 7).toNat + 2 ^ 7 * unvarint bs

/-- `wellformed(L)` (R131), clauses (a) to (d). -/
abbrev wellformedResult (l : List Byte) : Prop :=
  (1 ≤ l.length ∧ l.length ≤ 10) ∧
  (∀ i (h : i < l.length), l[i].msb = decide (i + 1 < l.length)) ∧
  (2 ≤ l.length → l[l.length - 1]? ≠ some 0x00#8) ∧
  (l.length = 10 → l[9]? = some 0x01#8)

/-- `unzigzag64(t)` (R132): `t / 2` for even `t`, `-(t + 1) / 2` for odd `t`. -/
def unzigzag64 (t : Word) : Int :=
  if t.toNat % 2 = 0 then (t.toNat : Int) / 2 else -(((t.toNat : Int) + 1) / 2)

/-- `unzigzag64(t)` as a 64-bit pattern (R132): `(t >> 1) ^ (t[0] ? all ones : 0)`. -/
def unzigzagBits (t : Word) : Word := (t >>> 1) ^^^ (if t.getLsbD 0 then 0xFFFFFFFFFFFFFFFF#64 else 0#64)

end Sys2Proof.Machine
end

