-- ==== Sys2Proof/Safety.lean ====
section
/-! DEFINITION. What claims are stated in: the invariants of the reachable state (spec/10_state.md R30 to R33), runs of the
machine, and what it means that a state shows the result of a command. -/

namespace Sys2Proof.Machine

/-- R31: the block is encoding a command with transformed value `t`. -/
def Block.Encoding (b : Block) (t : Word) : Prop :=
  b.phase = .run ∧ b.len.val ≤ 9 ∧ b.w = t >>> (7 * b.len.val) ∧
  (∀ i (h : i < 10), b.buf[i] = if i < b.len.val then varintByte 1#1 (group t i) else 0x00#8) ∧
  (1 ≤ b.len.val → b.w ≠ 0#64)

/-- R32: the block shows the result of a command with transformed value `t`. -/
def Block.Showing (b : Block) (t : Word) : Prop :=
  b.phase = .done ∧ b.len.val = nbytes t ∧ b.w = 0#64 ∧
  (∀ i (h : i < 10), b.buf[i] = if i < nbytes t then varintAt t i else 0x00#8)

/-- The invariant of the reachable state (R30 to R32): nothing is promised in `IDLE`. -/
def Block.Inv (b : Block) : Prop :=
  match b.phase with
  | .idle => True
  | .run => ∃ t, b.Encoding t
  | .done => ∃ t, b.Showing t

/-- The invariant of a state is that of its block: the host's schedule is unconstrained (R28). -/
def State.Inv (s : State) : Prop := s.toBlock.Inv

/-- `s'` is the state after `k` edges from `s`. -/
def Reaches (k : Nat) (s s' : State) : Prop := core.run k s = .next s'

/-- The host does not assert `rst` at the next `n` edges. -/
def State.NoReset (s : State) (n : Nat) : Prop := ∀ k < n, (s.inputAt k).rst = false

/-- The machine launched from `S_reset` with the given inputs at its first edges (R37, R141). -/
def State.launched (ins : List Input) : State := { State.reset with host := ins }

/-- The ports show the byte list `l` (R67, R99): `rsp_valid`, its length, its bytes in the lanes, zeros above. -/
def Block.Shows (b : Block) (l : List Byte) : Prop :=
  b.rspValid = true ∧ b.rspLen.toNat = l.length ∧ ∀ i < 10, lane b.rspData i = (l[i]?).getD 0x00#8

/-- The ports show no result: `rsp_len` and `rsp_data` are all zeros (R29). -/
def Block.ShowsNothing (b : Block) : Prop := b.rspValid = false ∧ b.rspLen = 0#4 ∧ b.rspData = 0#80

end Sys2Proof.Machine
end

