-- ==== Sys2Proof/Certificates/Slice0/Obligations.lean ====
section
/-! DEFINITION. The statements for the provers, from the spec's numbered rules. -/

open Sys2Proof Sys2Proof.Machine

/-! ## Commands and their words (spec/30_encoding.md) -/

/-- Five command words, written out from the encoding of R60 and R61, decode to the commands they stand for. -/
def Obligations.WrittenWordsDecode : Prop :=
  decodeWord 0x0000000000000012C#65 = .encu 300#64 ∧
  decodeWord 0x0FFFFFFFFFFFFFFFF#65 = .encu 0xFFFFFFFFFFFFFFFF#64 ∧
  decodeWord 0x18000000000000000#65 = .encs 0x8000000000000000#64 ∧
  decodeWord 0x1FFFFFFFFFFFFFFFF#65 = .encs 0xFFFFFFFFFFFFFFFF#64 ∧
  decodeTableWord 72 0x10000000000000005 = some (.encs 5#64)

/-- R60, R63: decoding and encoding are inverse to each other on all commands and on all 2^65 words, and the decoder
refuses, by name, exactly the numbers that are no 65-bit word (the refusal is the model's choice, log entry 8). -/
def Obligations.DecodeEncodeAgree : Prop :=
  (∀ i : Instr, i.wellFormed = true ∧ decodeWord (encode i) = i ∧ decode (encode i).toNat = .ok i) ∧
  (∀ w : CmdWord, encode (decodeWord w) = w) ∧
  (∀ n : Nat, decode n = .error .widerThanCommand ↔ 2 ^ 65 ≤ n)

/-- R64: every command word selects exactly one row of the operation map, by `w & mask = match`, and decodes to that
row's operation with the low 64 bits as its operand. -/
def Obligations.EveryWordSelectsOneRow : Prop :=
  ∀ w : CmdWord,
    (selectsRow encuMatch w = true ∧ selectsRow encsMatch w = false ∧ decodeWord w = .encu (w.setWidth 64)) ∨
    (selectsRow encuMatch w = false ∧ selectsRow encsMatch w = true ∧ decodeWord w = .encs (w.setWidth 64))

/-- R72: a literal in the operation's range spells the command it means, in both notations of `ENCS`, and a literal
outside the range spells no command. -/
def Obligations.LiteralsSpellCommands : Prop :=
  (∀ v : Word, (CommandText.encu v.toNat).toInstr = some (.encu v) ∧ (CommandText.encsHex v.toNat).toInstr = some (.encs v) ∧
    (CommandText.encsDecimal (signed64 v)).toInstr = some (.encs v)) ∧
  (∀ n : Nat, 2 ^ 64 ≤ n → (CommandText.encu n).toInstr = none ∧ (CommandText.encsHex n).toInstr = none) ∧
  (∀ s : Int, s < -2 ^ 63 ∨ 2 ^ 63 ≤ s → (CommandText.encsDecimal s).toInstr = none)

/-! ## The step, phase by phase (spec/40_packer_and_sequencer.md Part 2, spec/70_reset_and_hazards.md) -/

/-- First clause (R92, R95): a step at which a command word is taken from the port is `exec` of the decoded command, at
the state whose coming edge's inputs are used up. Second clause, the model's own choice (log entry 7, DEDUCED): `withFetchWord`
stands for the host's act of presenting a command, setting `PHASE` to `IDLE` and the coming edge's inputs, and a word
it places is taken so. -/
def Obligations.StepRunsTheDecodedCommand : Prop :=
  (∀ (s : State) (i : Instr), s.phase = .idle → s.input.rst = false → s.input.cmdValid = true →
    decodeWord s.input.word = i → step s = exec i s.tick) ∧
  (∀ (s : State) (nbits w : Nat) (i : Instr), decodeTableWord nbits w = some i →
    step (s.withFetchWord nbits w) = exec i (s.withFetchWord nbits w).tick)

/-- `ENCU` completes (R110, R92): in `IDLE` its accept step answers exactly this state, whatever the operand; everything
the state holds beside the four elements written is as before. -/
def Obligations.EncuIsAccepted : Prop :=
  ∀ (v : Word) (s : State), s.phase = .idle →
    exec (.encu v) s = .next { s with phase := .run, w := v, buf := Vector.replicate 10 0x00#8, len := 0 }

/-- `ENCS` completes (R125, R92): in `IDLE` its accept step answers exactly this state, whatever the operand,
`INT64_MIN` among them. -/
def Obligations.EncsIsAccepted : Prop :=
  ∀ (v : Word) (s : State), s.phase = .idle →
    exec (.encs v) s = .next { s with phase := .run, w := zigzag64 v, buf := Vector.replicate 10 0x00#8, len := 0 }

/-- The frame of a command outside `IDLE` (R93, R94: `cmd_valid`, `cmd_op` and `cmd_value` are ignored): it changes
nothing at all (that `exec` is the command's own part of the edge is the model's reading, log entry 4). -/
def Obligations.BusyCommandChangesNothing : Prop :=
  ∀ (i : Instr) (s : State), s.phase ≠ .idle → exec i s = .next s

/-- R36: the reset state, its outputs, and that it is the state after any step with `rst = 1`, from every state. -/
def Obligations.ResetStateEverywhere : Prop :=
  (State.reset.phase = .idle ∧ State.reset.w = 0#64 ∧ (∀ i (h : i < 10), State.reset.buf[i] = 0x00#8) ∧
    State.reset.len.val = 0) ∧
  (State.reset.cmdReady = true ∧ State.reset.rspValid = false ∧ State.reset.rspLen = 0#4 ∧ State.reset.rspData = 0#80) ∧
  (∀ s : State, s.input.rst = true → ∃ t, step s = .next t ∧ t.toBlock = State.reset.toBlock)

/-- R170, R173: while `rst` stays 1 the state stays the reset state, and a command presented at the first step with
`rst = 0` is accepted at that very step. -/
def Obligations.ResetHoldsThenAccepts : Prop :=
  ∀ (s : State) (n : Nat), (∀ k ≤ n, (s.inputAt k).rst = true) → ∃ t, Reaches (n + 1) s t ∧ t.toBlock = State.reset.toBlock ∧
    t.input = s.inputAt (n + 1) ∧
    ((s.inputAt (n + 1)).rst = false → (s.inputAt (n + 1)).cmdValid = true →
      ∃ u, step t = .next u ∧ u.phase = .run ∧ u.w = transformed (s.inputAt (n + 1)).cmdOp (s.inputAt (n + 1)).cmdValue)

/-- R90: the complete transition relation for steps with `rst = 0`, and `IDLE` after a step with `rst = 1`. -/
def Obligations.PhaseTransitions : Prop :=
  ∀ s t : State, step s = .next t →
    (s.input.rst = true → t.phase = .idle) ∧
    (s.input.rst = false →
      t.phase = match s.phase with
        | .idle => if s.input.cmdValid = true then .run else .idle
        | .run => if s.w >>> 7 ≠ 0#64 then .run else .done
        | .done => if s.input.rspReady = true then .idle else .done)

/-- R91: in `IDLE` with no command nothing changes, whatever `cmd_op`, `cmd_value` and `rsp_ready` are. -/
def Obligations.IdleStepChangesNothing : Prop :=
  ∀ s : State, s.input.rst = false → s.phase = .idle → s.input.cmdValid = false →
    ∃ t, step s = .next t ∧ t.toBlock = s.toBlock

/-- R92: the accept step, every write of it, whatever `rsp_ready` is. -/
def Obligations.AcceptStepWrites : Prop :=
  ∀ s : State, s.input.rst = false → s.phase = .idle → s.input.cmdValid = true →
    ∃ t, step s = .next t ∧ t.phase = .run ∧ t.len.val = 0 ∧ (∀ i (h : i < 10), t.buf[i] = 0x00#8) ∧
      t.w = if s.input.cmdOp = 1#1 then zigzag64 s.input.cmdValue else s.input.cmdValue

/-- R93: the run step, every write of it and its frame (all other bytes of `BUF` keep their values), whatever the
command inputs and `rsp_ready` are; and its write index is 0 to 9 in every state that meets the invariant. -/
def Obligations.RunStepEmitsOneByte : Prop :=
  ∀ s : State, s.phase = .run → (s.Inv → s.len.val ≤ 9) ∧
    (s.input.rst = false → s.len.val ≤ 9 →
      ∃ t, step s = .next t ∧
        (∀ i (h : i < 10), t.buf[i] =
          if i = s.len.val then varintByte (if s.w >>> 7 ≠ 0#64 then 1#1 else 0#1) (s.w.extractLsb' 0 7) else s.buf[i]) ∧
        t.len.val = s.len.val + 1 ∧ t.w = s.w >>> 7 ∧ t.phase = if s.w >>> 7 ≠ 0#64 then .run else .done)

/-- THE MODEL'S OWN CHOICE (log entry 5), where R33 and R35 give no next state and no run reaches: a run step with
`LEN = 10` is refused by name, unless `rst = 1`. -/
def Obligations.RunStepWithFullBufferStops : Prop :=
  ∀ s : State, s.phase = .run → s.len.val = 10 → s.input.rst = false → step s = .refused .bufferFull

/-- R94: in `DONE` the result is held, outputs and all, until `rsp_ready = 1`; then only the phase changes, and a
command presented at the retiring step is not accepted there but at the next step, if it is presented then. -/
def Obligations.DoneStepHoldsOrRetires : Prop :=
  ∀ s : State, s.input.rst = false → s.phase = .done → s.accepts = false ∧
    (∀ m, (∀ k < m, (s.inputAt k).rst = false ∧ (s.inputAt k).rspReady = false) →
      ∃ t, Reaches m s t ∧ t.toBlock = s.toBlock ∧ t.rspValid = s.rspValid ∧ t.rspLen = s.rspLen ∧ t.rspData = s.rspData) ∧
    (s.input.rspReady = true → ∃ t, step s = .next t ∧ t.phase = .idle ∧ t.w = s.w ∧ t.buf = s.buf ∧ t.len = s.len ∧
      t.ShowsNothing ∧ (t.input.rst = false → t.input.cmdValid = true → t.accepts = true))

/-- R28, R54, R178: the step does not look at `cmd_op` and `cmd_value` except where it accepts, nor at `cmd_valid`
outside `IDLE`, nor at `rsp_ready` outside `DONE`, nor at anything but `rst` under reset. -/
def Obligations.IgnoredInputsHaveNoEffect : Prop :=
  ∀ s s' t : State, s.toBlock = s'.toBlock → s.input.rst = s'.input.rst →
    (s.input.rst = false → s.phase = .idle → s.input.cmdValid = s'.input.cmdValid) →
    (s.accepts = true → s.input.cmdOp = s'.input.cmdOp ∧ s.input.cmdValue = s'.input.cmdValue) →
    (s.input.rst = false → s.phase = .done → s.input.rspReady = s'.input.rspReady) →
    step s = .next t → ∃ t', step s' = .next t' ∧ t'.toBlock = t.toBlock

/-! ## The output ports (spec/10_state.md R29, spec/20_memory.md R43) -/

/-- R29: each output port as a function of the state. -/
def Obligations.OutputPorts : Prop :=
  ∀ b : Block,
    (b.cmdReady = true ↔ b.phase = .idle) ∧ (b.rspValid = true ↔ b.phase = .done) ∧
    (b.phase = .done → b.rspLen.toNat = b.len.val ∧
      b.rspData = b.buf[9] ++ b.buf[8] ++ b.buf[7] ++ b.buf[6] ++ b.buf[5] ++ b.buf[4] ++ b.buf[3] ++ b.buf[2] ++
        b.buf[1] ++ b.buf[0]) ∧
    (b.phase ≠ .done → b.rspLen = 0#4 ∧ b.rspData = 0#80)

/-- R43: byte `i` of `BUF` is lane `i` of the bus, and the bus read as a number is the sum over `i` of
`BUF[i] * 2^(8i)`. -/
def Obligations.BusLanes : Prop :=
  ∀ b : Block, (∀ i (h : i < 10), lane b.bus i = b.buf[i]) ∧
    b.bus.toNat = ((List.range 10).map fun i => (b.buf[i]?.getD 0x00#8).toNat * 2 ^ (8 * i)).sum

/-! ## The packer's functions (spec/40_packer_and_sequencer.md Part 1) -/

/-- R80: group `i` as a number, and bit by bit. -/
def Obligations.GroupBits : Prop :=
  ∀ (t : Word) (i : Nat), i ≤ 9 →
    (group t i).toNat = (t.toNat / 2 ^ (7 * i)) % 128 ∧
    (∀ k < 7, (group t i).getLsbD k = if 7 * i + k ≤ 63 then t.getLsbD (7 * i + k) else false) ∧
    (i = 9 → group t i = if t.msb then 1#7 else 0#7)

/-- R81 (marked [derived] by the spec): the ten groups are a partition of the 64 bits. -/
def Obligations.GroupsPartition : Prop :=
  ∀ t : Word, t.toNat = ((List.range 10).map fun i => (group t i).toNat * 2 ^ (7 * i)).sum

/-- R82: remainder and continuation. -/
def Obligations.RestAndCont : Prop :=
  ∀ t : Word, rest t 9 = 0#64 ∧
    (∀ i ≤ 9, (rest t i).toNat = t.toNat / 2 ^ (7 * (i + 1)) ∧
      (cont t i = 1#1 ↔ rest t i ≠ 0#64) ∧
      (cont t i = 1#1 ↔ ∃ k, 7 * (i + 1) ≤ k ∧ k < 64 ∧ t.getLsbD k = true) ∧
      (cont t i = 0#1 → ∀ j, i ≤ j → cont t j = 0#1))

/-- R83: bit length, from general knowledge by the spec's own mark (log entry 11). -/
def Obligations.BitLength : Prop :=
  ∀ t : Word, bitlen t ≤ 64 ∧ (t = 0#64 → bitlen t = 0) ∧
    (t ≠ 0#64 → ∀ k, k = bitlen t ↔ 1 ≤ k ∧ 2 ^ (k - 1) ≤ t.toNat ∧ t.toNat < 2 ^ k)

/-- R84 (marked [derived] by the spec): the length and its three equivalent forms. -/
def Obligations.LengthForms : Prop :=
  ∀ t : Word,
    (nbytes t = max 1 ⌈(bitlen t : ℚ) / 7⌉₊ ∧ 1 ≤ nbytes t ∧ nbytes t ≤ 10) ∧
    (t >>> (7 * nbytes t) = 0#64 ∧ ∀ n, 1 ≤ n → t >>> (7 * n) = 0#64 → nbytes t ≤ n) ∧
    nbytes t = 1 + ((List.range 9).filter fun i => cont t i == 1#1).length ∧
    (t.toNat < 2 ^ 7 → nbytes t = 1) ∧
    (2 ^ 7 ≤ t.toNat → 2 ≤ nbytes t ∧ 2 ^ (7 * (nbytes t - 1)) ≤ t.toNat ∧ t.toNat < 2 ^ (7 * nbytes t))

/-- R86: the varint of a value, byte by byte, and its continuation bits. -/
def Obligations.VarintBytes : Prop :=
  ∀ t : Word, (varint t).length = nbytes t ∧
    (∀ i, i < nbytes t → ∃ b, (varint t)[i]? = some b ∧ b.toNat = (cont t i).toNat * 0x80 + (group t i).toNat) ∧
    (∀ i, i + 2 ≤ nbytes t → cont t i = 1#1) ∧ cont t (nbytes t - 1) = 0#1

/-- R87 (marked [derived] by the spec): the source's loop, started with `w = t`, appends exactly `varint(t)`, for
every bound of at least 10 iterations. -/
def Obligations.SourceLoopIsVarint : Prop :=
  ∀ (t : Word) (fuel : Nat), 10 ≤ fuel → packLoop fuel t = varint t

/-- R88 (marked [derived] by the spec): one packer iteration, slice by slice. -/
def Obligations.PackIteration : Prop :=
  ∀ w : Word, (pack w).b = w.extractLsb' 0 7 ∧ (pack w).w = (w.extractLsb' 7 57).setWidth 64 ∧ (pack w).w = w >>> 7 ∧
    ((pack w).c = 1#1 ↔ (pack w).w ≠ 0#64) ∧ (pack w).byte = (pack w).c ++ (pack w).b

/-! ## The zigzag transform (spec/42_encs.md) -/

/-- R120: the transform is exact, in the integers, for every pattern; odd for negative numbers, even for the others. -/
def Obligations.ZigzagIsExact : Prop :=
  ∀ v : Word,
    (signed64 v < 0 → ((zigzag64 v).toNat : Int) = 2 * ((-signed64 v) - 1) + 1 ∧ (zigzag64 v).toNat % 2 = 1) ∧
    (0 ≤ signed64 v → ((zigzag64 v).toNat : Int) = 2 * signed64 v ∧ (zigzag64 v).toNat % 2 = 0)

/-- R121 (marked [derived] by the spec): the bit-level form is the same function, bit by bit, and the source's modular
recipe gives the complement. -/
def Obligations.ZigzagBitLevel : Prop :=
  ∀ v : Word, zigzag64 v = ((v <<< 1) ^^^ (if v.msb then 0xFFFFFFFFFFFFFFFF#64 else 0#64)) ∧
    (zigzag64 v).getLsbD 0 = v.getLsbD 63 ∧
    (∀ i, 1 ≤ i → i ≤ 63 → (zigzag64 v).getLsbD i = (v.getLsbD (i - 1) ^^ v.getLsbD 63)) ∧
    (v.msb = true → -v - 1#64 = ~~~v ∧ zigzag64 v = (((-v - 1#64) <<< 1) ||| 1#64))

/-- R122, the value it gives: the minimum signed value means `-2^63`, its transform is all ones, and its result as a byte
list is nine `0xFF` and `0x01`. That its accept step completes like any other is `EncsIsAccepted`. -/
def Obligations.MinimumSignedValue : Prop :=
  signed64 0x8000000000000000#64 = -2 ^ 63 ∧ zigzag64 0x8000000000000000#64 = 0xFFFFFFFFFFFFFFFF#64 ∧
  encodeSigned 0x8000000000000000#64 = List.replicate 9 0xFF#8 ++ [0x01#8]

/-- R124 (marked [derived] by the spec): the transform is a bijection, ordered by magnitude. -/
def Obligations.ZigzagBijective : Prop :=
  Function.Bijective zigzag64 ∧
  ∀ v : Word, (0 ≤ signed64 v → (zigzag64 v).toNat = 2 * (signed64 v).natAbs) ∧
    (signed64 v < 0 → (zigzag64 v).toNat = 2 * (signed64 v).natAbs - 1)

/-- R127 (marked [derived] by the spec): the length of an `ENCS` result in terms of the signed operand. -/
def Obligations.SignedLength : Prop :=
  ∀ v : Word, (∀ n, 1 ≤ n → n ≤ 9 →
      (nbytes (zigzag64 v) ≤ n ↔ -2 ^ (7 * n - 1) ≤ signed64 v ∧ signed64 v ≤ 2 ^ (7 * n - 1) - 1)) ∧
    (nbytes (zigzag64 v) = 10 ↔ ¬(-2 ^ 62 ≤ signed64 v ∧ signed64 v ≤ 2 ^ 62 - 1))

/-! ## Results, inverses and the source's properties (spec/43_properties_and_inverse.md, spec/30_encoding.md R66 to R69) -/

/-- R111 and R126: the concrete cases the source prints. -/
def Obligations.SourceExamples : Prop :=
  (encodeUnsigned 0#64 = [0x00#8] ∧ encodeUnsigned 127#64 = [0x7F#8] ∧ encodeUnsigned 128#64 = [0x80#8, 0x01#8] ∧
    encodeUnsigned 300#64 = [0xAC#8, 0x02#8]) ∧
  (encodeSigned 0x8000000000000000#64 =
    [0xFF#8, 0xFF#8, 0xFF#8, 0xFF#8, 0xFF#8, 0xFF#8, 0xFF#8, 0xFF#8, 0xFF#8, 0x01#8]) ∧
  (encodeSigned 0#64 = [0x00#8] ∧ encodeSigned (-1#64) = [0x01#8] ∧ encodeSigned 1#64 = [0x02#8] ∧
    encodeSigned (-2#64) = [0x03#8] ∧ encodeSigned 2#64 = [0x04#8])

/-- R69 (marked [derived] by the spec): no redundant trailing group; a ten-byte result ends in `0x01`; only 0 has a
result whose last byte is `0x00`. -/
def Obligations.MinimalForm : Prop :=
  ∀ t : Word, (2 ≤ (varint t).length → (varint t).getLast? ≠ some 0x00#8) ∧
    ((varint t).getLast? = some 0x00#8 → t = 0#64 ∧ varint t = [0x00#8]) ∧
    ((varint t).length = 10 → (varint t).getLast? = some 0x01#8)

/-- R131 (marked [derived] by the spec): the well-formed lists are exactly the results, and a result determines its
value. -/
def Obligations.WellformedExactlyResults : Prop :=
  ∀ l : List Byte, (wellformedResult l ↔ ∃ t : Word, l = varint t) ∧
    (∀ t : Word, l = varint t → t.toNat = unvarint l)

/-- R132 (marked [derived] by the spec): the inverse of the transform, as a number and as a pattern. -/
def Obligations.UnzigzagInverse : Prop :=
  (∀ v : Word, unzigzag64 (zigzag64 v) = signed64 v) ∧
  (∀ t : Word, zigzag64 (BitVec.ofInt 64 (unzigzag64 t)) = t ∧ unzigzagBits t = BitVec.ofInt 64 (unzigzag64 t) ∧
    -2 ^ 63 ≤ unzigzag64 t ∧ unzigzag64 t ≤ 2 ^ 63 - 1)

/-- R133: round trip, unsigned. -/
def Obligations.RoundTripUnsigned : Prop := ∀ v : Word, unvarint (encodeUnsigned v) = v.toNat

/-- R134: round trip, signed, `INT64_MIN` included. -/
def Obligations.RoundTripSigned : Prop :=
  ∀ v : Word, unzigzag64 (BitVec.ofNat 64 (unvarint (encodeSigned v))) = signed64 v

/-- R138 (marked [derived] by the spec): both operations are injective, each onto the well-formed lists. -/
def Obligations.OperationsAreBijections : Prop :=
  Function.Injective encodeUnsigned ∧ Function.Injective encodeSigned ∧
  Set.range encodeUnsigned = { l | wellformedResult l } ∧ Set.range encodeSigned = { l | wellformedResult l }

/-- R139 (marked [derived] by the spec): the two operations are related by the transform alone. -/
def Obligations.OperationsRelatedByTransform : Prop :=
  (∀ v : Word, encodeSigned v = encodeUnsigned (zigzag64 v)) ∧
  (∀ t : Word, encodeUnsigned t = encodeSigned (BitVec.ofInt 64 (unzigzag64 t)))

/-- R140 (marked [derived] by the spec): length is monotone in the transformed value, and for `ENCS` in the magnitude
of the operand. -/
def Obligations.LengthIsMonotone : Prop :=
  (∀ t u : Word, t.toNat ≤ u.toNat → nbytes t ≤ nbytes u) ∧
  (∀ v w : Word, (signed64 v).natAbs < (signed64 w).natAbs → (encodeSigned v).length ≤ (encodeSigned w).length)

/-! ## Invariants of the reachable state (spec/10_state.md R30 to R33) -/

/-- The reset state, with any schedule of inputs, meets the invariant of R30 to R32. -/
def Obligations.ResetMeetsInvariant : Prop := State.reset.Inv ∧ ∀ ins : List Input, (State.launched ins).Inv

/-- R30 to R32 (marked [derived] by the spec): every step keeps the invariant, whatever the inputs. -/
def Obligations.EveryStepKeepsInvariant : Prop := ∀ s t : State, s.Inv → step s = .next t → t.Inv

/-- R95, R150: from every state that meets the invariant, whatever the inputs, the step has a next state: no fault, no
refusal. -/
def Obligations.NoStepStops : Prop := ∀ s : State, s.Inv → ∃ t, step s = .next t

/-- R95, R150, R176: every run from reset goes on for ever, under every schedule of inputs, and meets the invariant
throughout. -/
def Obligations.EveryRunGoesOn : Prop :=
  ∀ (ins : List Input) (k : Nat), ∃ t, Reaches k (State.launched ins) t ∧ t.Inv

/-- R33 (marked [derived] by the spec): in `RUN` the write index is 0 to 9 and the working value has at most `64 - 7 *
LEN` bits; at index 9 the step writes `BUF[9]`, makes `LEN` 10 and goes to `DONE`. -/
def Obligations.RunNeverOverfillsBuffer : Prop :=
  ∀ s : State, s.Inv → s.phase = .run →
    s.len.val ≤ 9 ∧ s.w.toNat < 2 ^ (64 - 7 * s.len.val) ∧
    (s.len.val = 9 → s.input.rst = false →
      ∃ t, step s = .next t ∧ t.len.val = 10 ∧ t.phase = .done ∧ t.buf[9] = varintByte 0#1 (s.w.setWidth 7))

/-- R66, R136: every byte of a result but the last has its continuation bit set, and the last has it clear: in the byte
list, and, in every state that meets the invariant and shows a result, in `BUF` and in the lanes of `rsp_data`. -/
def Obligations.ContinuationBits : Prop :=
  (∀ (t : Word) (i : Nat) (h : i < (varint t).length), (varint t)[i].msb = decide (i + 1 < (varint t).length)) ∧
  (∀ s : State, s.Inv → s.rspValid = true → (1 ≤ s.rspLen.toNat ∧ s.rspLen.toNat ≤ 10) ∧
    ∀ i (h : i < 10), s.buf[i].msb = decide (i + 1 < s.rspLen.toNat) ∧
      s.rspData.getLsbD (8 * i + 7) = decide (i + 1 < s.rspLen.toNat))

/-! ## Whole commands (spec/40_packer_and_sequencer.md R97 to R102) -/

/-- `ENCU` to its end (R110): accepted in `IDLE`, and after `nbytes(v)` run steps without reset the ports show
`varint(v)`. -/
def Obligations.EncuDeliversVarint : Prop :=
  ∀ (v : Word) (s : State), s.phase = .idle → s.NoReset (nbytes v) →
    ∃ t u, exec (.encu v) s = .next t ∧ Reaches (nbytes v) t u ∧ u.Shows (varint v)

/-- `ENCS` to its end (R125): accepted in `IDLE`, and after `nbytes(zigzag64(v))` run steps without reset the ports show
`varint(zigzag64(v))`. -/
def Obligations.EncsDeliversVarint : Prop :=
  ∀ (v : Word) (s : State), s.phase = .idle → s.NoReset (nbytes (zigzag64 v)) →
    ∃ t u, exec (.encs v) s = .next t ∧ Reaches (nbytes (zigzag64 v)) t u ∧ u.Shows (varint (zigzag64 v))

/-- R97 (marked [derived] by the spec): the working value, the count and the bytes written, after the accept step and
`k` run steps. -/
def Obligations.WorkingValueDuringCommand : Prop :=
  ∀ (s : State) (t : Word) (k : Nat), s.accepts = true → t = transformed s.input.cmdOp s.input.cmdValue →
    k ≤ nbytes t → s.NoReset (k + 1) →
    ∃ u, Reaches (k + 1) s u ∧ u.w = t >>> (7 * k) ∧ u.len.val = k ∧
      ∀ j (h : j < 10), j < k → u.buf[j] = varintByte (cont t j) (group t j)

/-- R98 (marked [derived] by the spec): from the accept step the block reaches `DONE` after exactly `nbytes(t)` run
steps, 1 to 10 of them, whatever the inputs other than `rst`. -/
def Obligations.TerminatesWithinTenSteps : Prop :=
  ∀ (s : State) (t : Word), s.accepts = true → t = transformed s.input.cmdOp s.input.cmdValue →
    s.NoReset (nbytes t + 1) →
    (1 ≤ nbytes t ∧ nbytes t ≤ 10) ∧
    (∀ k, 1 ≤ k → k ≤ nbytes t → ∃ u, Reaches k s u ∧ u.phase = .run) ∧
    ∃ u, Reaches (nbytes t + 1) s u ∧ u.phase = .done

/-- R99 (marked [derived] by the spec): the result of a command. Nothing is shown at the edges of its run; then the
whole result is shown, and stays for as long as the host neither takes it nor resets. -/
def Obligations.ResultOfCommand : Prop :=
  ∀ (s : State) (t : Word), s.accepts = true → t = transformed s.input.cmdOp s.input.cmdValue →
    s.NoReset (nbytes t + 1) →
    (∀ k, 1 ≤ k → k ≤ nbytes t → ∃ u, Reaches k s u ∧ u.ShowsNothing ∧ u.cmdReady = false) ∧
    (∀ m, (∀ j, nbytes t < j → j ≤ nbytes t + m → (s.inputAt j).rst = false ∧ (s.inputAt j).rspReady = false) →
      ∃ u, Reaches (nbytes t + 1 + m) s u ∧ u.Shows (varint t))

/-- R102, R183 (marked [derived] by the spec): with `cmd_valid` and `rsp_ready` held and no reset, successive accepts
are `nbytes(t) + 2` steps apart: nothing overlaps. -/
def Obligations.SpacingOfAccepts : Prop :=
  ∀ (s : State) (t : Word), s.accepts = true → t = transformed s.input.cmdOp s.input.cmdValue →
    (∀ k ≤ nbytes t + 2, (s.inputAt k).rst = false ∧ (s.inputAt k).cmdValid = true ∧ (s.inputAt k).rspReady = true) →
    (∀ k, 1 ≤ k → k < nbytes t + 2 → ∃ u, Reaches k s u ∧ u.accepts = false) ∧
    ∃ u, Reaches (nbytes t + 2) s u ∧ u.accepts = true

/-- R163 (marked [derived] by the spec): a shown result waits for as long as the host likes, and the first `rsp_ready`
sends the block back to `IDLE`. -/
def Obligations.DoneWaitsForTheHost : Prop :=
  ∀ (s : State) (m : Nat), s.phase = .done → (∀ k < m, (s.inputAt k).rst = false ∧ (s.inputAt k).rspReady = false) →
    ∃ u, Reaches m s u ∧ u.toBlock = s.toBlock ∧
      ((s.inputAt m).rst = false → (s.inputAt m).rspReady = true → ∃ u', Reaches (m + 1) s u' ∧ u'.phase = .idle)

/-- R50, R34: purity. Two states that accept the same command show the same outputs after its run, whatever they held
before and whatever else the host drives meanwhile. -/
def Obligations.ResultDependsOnCommandOnly : Prop :=
  ∀ (s s' : State), s.accepts = true → s'.accepts = true → s.input.word = s'.input.word →
    s.NoReset (nbytes (transformed s.input.cmdOp s.input.cmdValue) + 1) →
    s'.NoReset (nbytes (transformed s.input.cmdOp s.input.cmdValue) + 1) →
    ∃ u u', Reaches (nbytes (transformed s.input.cmdOp s.input.cmdValue) + 1) s u ∧
      Reaches (nbytes (transformed s.input.cmdOp s.input.cmdValue) + 1) s' u' ∧ u.rspValid = true ∧ u'.rspValid = true ∧
      u.rspLen = u'.rspLen ∧ u.rspData = u'.rspData

/-- R141 (marked [derived] by the spec): the properties at the ports, for every execution from reset with arbitrary
inputs. Where a result is shown there is exactly one most recent accept step, and the lanes hold the encoding of its
command, well formed, decoding to its transformed value, zeros above; where none is shown the result ports are zero.
-/
def Obligations.PortsShowTheAcceptedCommand : Prop :=
  ∀ (ins : List Input) (k : Nat) (u : State), Reaches k (State.launched ins) u →
    (u.rspValid = true → ∃! j, j < k ∧ ∃ s, Reaches j (State.launched ins) s ∧ s.accepts = true ∧
      (∀ m s', j < m → m < k → Reaches m (State.launched ins) s' → s'.accepts = false) ∧
      u.shownBytes = resultOf s.input.cmdOp s.input.cmdValue ∧ wellformedResult u.shownBytes ∧
      unvarint u.shownBytes = (transformed s.input.cmdOp s.input.cmdValue).toNat ∧
      ∀ i, u.rspLen.toNat ≤ i → i < 10 → lane u.rspData i = 0x00#8) ∧
    (u.rspValid = false → u.rspLen = 0#4 ∧ u.rspData = 0#80)

/-- R135: the length of a result is `nbytes` of the transformed value, 1 to 10; and at the ports, at every edge of every
execution from reset at which a result is shown, `rsp_len` is that number for the command last accepted. -/
def Obligations.LengthBound : Prop :=
  (∀ v : Word, (encodeUnsigned v).length = nbytes v ∧ (encodeSigned v).length = nbytes (zigzag64 v)) ∧
  (∀ t : Word, nbytes t = max 1 ⌈(bitlen t : ℚ) / 7⌉₊ ∧ 1 ≤ nbytes t ∧ nbytes t ≤ 10) ∧
  ∀ (ins : List Input) (k : Nat) (u : State), Reaches k (State.launched ins) u → u.rspValid = true →
    ∃ j s, j < k ∧ Reaches j (State.launched ins) s ∧ s.accepts = true ∧
      (∀ m s', j < m → m < k → Reaches m (State.launched ins) s' → s'.accepts = false) ∧
      u.rspLen.toNat = nbytes (transformed s.input.cmdOp s.input.cmdValue)
end

