-- ==== Sys2Proof/Laws/Decode.lean ====
section
/-! SUPPORT. The fields of a command word (spec/30_encoding.md R60). -/

namespace Sys2Proof

/-- Bit `k` of `{cmd_op, cmd_value}`. -/
theorem getLsbD_cmdWord (op : BitVec 1) (v : Word) (k : Nat) :
    (cmdWord op v).getLsbD k = if k < 64 then v.getLsbD k else op.getLsbD (k - 64) := by
  change (op ++ v : BitVec (1 + 64)).getLsbD k = _
  rw [BitVec.getLsbD_append]

/-- Field `op` of a command word is the operation select. -/
@[simp] theorem opField_cmdWord (op : BitVec 1) (v : Word) : opField (cmdWord op v) = op := by
  apply BitVec.eq_of_getLsbD_eq
  intro k hk
  obtain rfl : k = 0 := by omega
  rw [opField, BitVec.getLsbD_extractLsb', getLsbD_cmdWord]
  simp

/-- Field `value` of a command word is the operand. -/
@[simp] theorem valueField_cmdWord (op : BitVec 1) (v : Word) : valueField (cmdWord op v) = v := by
  apply BitVec.eq_of_getLsbD_eq
  intro k hk
  simp [valueField, getLsbD_cmdWord, hk]

/-- A command word is made of its two fields. -/
theorem cmdWord_fields (w : CmdWord) : cmdWord (opField w) (valueField w) = w := by
  apply BitVec.eq_of_getLsbD_eq
  intro k hk
  rw [getLsbD_cmdWord]
  split
  · simp [valueField, *]
  · obtain rfl : k = 64 := by omega
    simp [opField]

/-- A field of one bit is 1 or 0. -/
theorem bit_cases (b : BitVec 1) : b = 1#1 ∨ b = 0#1 := by
  revert b; decide

end Sys2Proof
end

