-- ==== Sys2Proof/Laws/Operands.lean ====
section
/-! SUPPORT. The signed reading of an operand (spec/00_scope.md R10) and the transform in the integers
(spec/42_encs.md R120). -/

namespace Sys2Proof.Machine

/-- `signed_64` is the two's-complement reading of the library. -/
theorem signed64_eq_toInt (v : Word) : signed64 v = v.toInt := by
  unfold signed64
  rw [BitVec.toInt_eq_msb_cond]
  rfl

/-- The range of the signed operand (R62). -/
theorem signed64_range (v : Word) : -2 ^ 63 ≤ signed64 v ∧ signed64 v < 2 ^ 63 := by
  rw [signed64_eq_toInt]
  exact ⟨by simpa using BitVec.le_toInt v, by simpa using BitVec.toInt_lt (x := v)⟩

/-- A pattern is determined by the number it means. -/
theorem signed64_injective {v w : Word} (h : signed64 v = signed64 w) : v = w := by
  rw [signed64_eq_toInt, signed64_eq_toInt] at h
  exact BitVec.toInt_inj.1 h

/-- The pattern of a number in range means that number (R62). -/
theorem signed64_ofInt {i : Int} (h₁ : -2 ^ 63 ≤ i) (h₂ : i < 2 ^ 63) : signed64 (BitVec.ofInt 64 i) = i := by
  rw [signed64_eq_toInt, BitVec.toInt_ofInt]
  unfold Int.bmod
  norm_num at *
  omega

/-- The transform of a number in the signed range lies in the unsigned range (R120: "no reduction is needed"). -/
theorem zigzagInt_range {s : Int} (h₁ : -2 ^ 63 ≤ s) (h₂ : s < 2 ^ 63) : 0 ≤ zigzagInt s ∧ zigzagInt s < 2 ^ 64 := by
  unfold zigzagInt
  norm_num at *
  split <;> omega

/-- The transformed value of a command, by its operation select (spec/40_packer_and_sequencer.md R92). -/
@[simp] theorem transformed_zero (v : Word) : transformed 0#1 v = v := rfl
@[simp] theorem transformed_one (v : Word) : transformed 1#1 v = zigzag64 v := rfl

end Sys2Proof.Machine
end

