-- ==== Sys2Proof/Laws/Outputs.lean ====
section
/-! SUPPORT. Lanes of a bus that is a concatenation of bytes (spec/20_memory.md R43), and when the block accepts
(spec/70_reset_and_hazards.md R179). -/

namespace Sys2Proof.Machine

/-- The lowest lane of a concatenation is its last byte. -/
theorem lane_append_zero {n : Nat} (x : BitVec n) (y : Byte) : (x ++ y).extractLsb' 0 8 = y := by
  apply BitVec.eq_of_getLsbD_eq
  intro k hk
  rw [BitVec.getLsbD_extractLsb', BitVec.getLsbD_append]
  simp [hk]

/-- The other lanes are those of the rest. -/
theorem lane_append_succ {n : Nat} (x : BitVec n) (y : Byte) (i : Nat) :
    (x ++ y).extractLsb' (8 * (i + 1)) 8 = x.extractLsb' (8 * i) 8 := by
  apply BitVec.eq_of_getLsbD_eq
  intro k hk
  rw [BitVec.getLsbD_extractLsb', BitVec.getLsbD_append, BitVec.getLsbD_extractLsb', if_neg (by omega)]
  congr 2
  omega

/-- An accept edge, condition by condition. -/
theorem accepts_iff (s : State) :
    s.accepts = true ↔ s.input.rst = false ∧ s.phase = .idle ∧ s.input.cmdValid = true := by
  simp [State.accepts, Block.cmdReady]
  tauto

/-- The result ports show something in `DONE` only (R29). -/
@[simp] theorem rspValid_iff (b : Block) : b.rspValid = true ↔ b.phase = .done := by simp [Block.rspValid]

/-- The command port is open in `IDLE` only (R29). -/
@[simp] theorem cmdReady_iff (b : Block) : b.cmdReady = true ↔ b.phase = .idle := by simp [Block.cmdReady]

end Sys2Proof.Machine
end

