-- ==== Sys2Proof/Laws/Packer.lean ====
section
/-! SUPPORT. The packer's functions as arithmetic: shifts are divisions, the zero test and the length are comparisons with
powers of two (spec/40_packer_and_sequencer.md R80 to R86). -/

namespace Sys2Proof.Machine

/-- The zero test, as a condition. -/
theorem nonzero_eq (a : Word) : nonzero a = if a = 0#64 then 0#1 else 1#1 := by
  unfold nonzero
  by_cases h : a = 0#64
  · simp [h]
  · rw [if_neg h, bne_iff_ne.2 h]; rfl

/-- The continuation bit of an output byte is its bit 7 (R65). -/
@[simp] theorem varintByte_msb (c : BitVec 1) (g : Payload) : (varintByte c g).msb = decide (c = 1#1) := by
  unfold varintByte
  change (c ++ g : BitVec (1 + 7)).msb = _
  rw [BitVec.msb_append, if_neg (by decide)]
  revert c; decide

/-- The payload of an output byte is its bits 6:0 (R65). -/
@[simp] theorem varintByte_payload (c : BitVec 1) (g : Payload) : (varintByte c g).setWidth 7 = g := by
  unfold varintByte
  change (c ++ g : BitVec (1 + 7)).setWidth 7 = g
  apply BitVec.eq_of_getLsbD_eq
  intro k hk
  rw [BitVec.getLsbD_setWidth, BitVec.getLsbD_append]
  simp [hk]

/-- An output byte as a number (R65). -/
theorem toNat_varintByte (c : BitVec 1) (g : Payload) : (varintByte c g).toNat = c.toNat * 0x80 + g.toNat := by
  unfold varintByte
  change (c ++ g : BitVec (1 + 7)).toNat = _
  rw [BitVec.toNat_append, Nat.shiftLeft_eq, Nat.mul_comm, ← Nat.two_pow_add_eq_or_of_lt g.isLt,
    Nat.mul_comm]

/-- Every byte is `{c, g}` of its bit 7 and its payload. -/
theorem byte_eq_varintByte (b : Byte) : b = varintByte (BitVec.ofBool b.msb) (b.setWidth 7) := by
  revert b; decide

/-- `t >> 7k` as a number (R11). -/
theorem toNat_shift (t : Word) (k : Nat) : (t >>> k).toNat = t.toNat / 2 ^ k := by
  rw [BitVec.toNat_ushiftRight, Nat.shiftRight_eq_div_pow]

/-- A shifted value is zero exactly when the value lies below the power of two. -/
theorem shift_eq_zero_iff (t : Word) (k : Nat) : t >>> k = 0#64 ↔ t.toNat < 2 ^ k := by
  rw [← BitVec.toNat_inj, toNat_shift]
  simp

/-- A group as a number (R80). -/
theorem toNat_group (t : Word) (i : Nat) : (group t i).toNat = t.toNat / 2 ^ (7 * i) % 128 := by
  unfold group
  rw [BitVec.toNat_setWidth, toNat_shift]

/-- Nothing is left after group `i` exactly when the value lies below `2^(7(i+1))` (R82). -/
theorem cont_eq_zero_iff (t : Word) (i : Nat) : cont t i = 0#1 ↔ t.toNat < 2 ^ (7 * (i + 1)) := by
  unfold cont rest
  rw [nonzero_eq, ← shift_eq_zero_iff]
  split <;> simp_all

/-- Something is left after group `i` exactly when the value reaches `2^(7(i+1))` (R82). -/
theorem cont_eq_one_iff (t : Word) (i : Nat) : cont t i = 1#1 ↔ 2 ^ (7 * (i + 1)) ≤ t.toNat := by
  rw [← Nat.not_lt, ← cont_eq_zero_iff]
  generalize cont t i = c
  revert c; decide

/-- The bit length is at most `k` exactly when the value lies below `2^k` (R83). -/
theorem bitlen_le_iff (t : Word) (k : Nat) : bitlen t ≤ k ↔ t.toNat < 2 ^ k := by
  unfold bitlen
  split
  · simp_all
  · rename_i h
    have : t.toNat ≠ 0 := fun h' => h (BitVec.eq_of_toNat_eq h')
    rw [← Nat.log2_lt this]
    omega

/-- The length is at most `n` exactly when `n` groups hold the value (R84 (a)). -/
theorem nbytes_le_iff (t : Word) {n : Nat} (hn : 1 ≤ n) : nbytes t ≤ n ↔ t.toNat < 2 ^ (7 * n) := by
  rw [← bitlen_le_iff]
  unfold nbytes
  omega

/-- A result has a byte. -/
theorem one_le_nbytes (t : Word) : 1 ≤ nbytes t := Nat.le_max_left _ _

/-- A result has at most ten bytes (R8). -/
theorem nbytes_le_ten (t : Word) : nbytes t ≤ 10 :=
  (nbytes_le_iff t (by omega)).2 (Nat.lt_trans t.isLt (by decide))

/-- Byte `i` is followed by another exactly when its continuation bit is set (R84 (b), R86). -/
theorem cont_eq_one_iff_lt (t : Word) (i : Nat) : cont t i = 1#1 ↔ i + 1 < nbytes t := by
  rw [cont_eq_one_iff, ← Nat.not_lt, ← nbytes_le_iff t (Nat.succ_pos i), Nat.not_le]

/-- The length of a result (R86). -/
@[simp] theorem length_varint (t : Word) : (varint t).length = nbytes t := by simp [varint]

/-- The bytes of a result (R86). -/
@[simp] theorem getElem_varint (t : Word) (i : Nat) (h : i < (varint t).length) : (varint t)[i] = varintAt t i := by
  simp [varint]

/-- The continuation bits of a result (R66). -/
theorem msb_varintAt (t : Word) (i : Nat) : (varintAt t i).msb = decide (i + 1 < nbytes t) := by
  simp [varintAt, cont_eq_one_iff_lt]

/-- A byte of the packer's iteration over `t >> 7i` is byte `i` of the varint of `t` (R87, R88). -/
theorem pack_shift (t : Word) (i : Nat) : (pack (t >>> (7 * i))).byte = varintAt t i ∧
    (pack (t >>> (7 * i))).c = cont t i ∧ (pack (t >>> (7 * i))).w = t >>> (7 * (i + 1)) := by
  have : t >>> (7 * i) >>> 7 = t >>> (7 * (i + 1)) := by rw [← BitVec.shiftRight_add]; rfl
  simp only [pack, Packed.byte, varintAt, cont, rest, group, this, and_self]

end Sys2Proof.Machine
end

