-- ==== Sys2Proof/Laws/PerInstr.lean ====
section
/-! SUPPORT. What holds of every command as syntax, one lemma per constructor: it is well formed, and its word carries its
operation select in field `op` and its operand in field `value` (spec/30_encoding.md R60 to R64). -/

namespace Sys2Proof.Laws.Fields

/-- The operation select of a command (R61). -/
def selectOf : Instr → BitVec 1
  | .encu _ => 0#1
  | .encs _ => 1#1

/-- The operand of a command (R62). -/
def operandOf : Instr → Word
  | .encu v => v
  | .encs v => v

/-- The word of the command has the command's fields. -/
def Statement (i : Instr) : Prop :=
  i.wellFormed = true ∧ opField (encode i) = selectOf i ∧ valueField (encode i) = operandOf i

theorem encu (v : Word) : Statement (.encu v) := ⟨rfl, opField_cmdWord 0#1 v, valueField_cmdWord 0#1 v⟩

theorem encs (v : Word) : Statement (.encs v) := ⟨rfl, opField_cmdWord 1#1 v, valueField_cmdWord 1#1 v⟩

end Sys2Proof.Laws.Fields
end

