-- ==== Sys2Proof/Laws/State.lean ====
section
/-! SUPPORT. One lemma per field per update of the state, and the inputs after an edge. -/

namespace Sys2Proof.Machine

@[simp] theorem State.tick_toBlock (s : State) : s.tick.toBlock = s.toBlock := rfl
@[simp] theorem State.tick_host (s : State) : s.tick.host = s.host.tail := rfl
@[simp] theorem State.tick_edge (s : State) : s.tick.edge = s.edge + 1 := rfl

@[simp] theorem State.clear_toBlock (s : State) : s.clear.toBlock = Block.reset := rfl
@[simp] theorem State.clear_host (s : State) : s.clear.host = s.host := rfl
@[simp] theorem State.clear_edge (s : State) : s.clear.edge = s.edge := rfl

@[simp] theorem Block.reset_phase : Block.reset.phase = .idle := rfl
@[simp] theorem Block.reset_w : Block.reset.w = 0#64 := rfl
@[simp] theorem Block.reset_buf : Block.reset.buf = Vector.replicate 10 0x00#8 := rfl
@[simp] theorem Block.reset_len : Block.reset.len = 0 := rfl

@[simp] theorem State.load_phase (t : Word) (s : State) : (s.load t).phase = .run := rfl
@[simp] theorem State.load_w (t : Word) (s : State) : (s.load t).w = t := rfl
@[simp] theorem State.load_buf (t : Word) (s : State) : (s.load t).buf = Vector.replicate 10 0x00#8 := rfl
@[simp] theorem State.load_len (t : Word) (s : State) : (s.load t).len = 0 := rfl
@[simp] theorem State.load_host (t : Word) (s : State) : (s.load t).host = s.host := rfl
@[simp] theorem State.load_edge (t : Word) (s : State) : (s.load t).edge = s.edge := rfl

@[simp] theorem State.emit_buf (s : State) (h : s.len.val < 10) :
    (s.emit h).buf = s.buf.set s.len.val (pack s.w).byte h := rfl
@[simp] theorem State.emit_len (s : State) (h : s.len.val < 10) : (s.emit h).len.val = s.len.val + 1 := rfl
@[simp] theorem State.emit_w (s : State) (h : s.len.val < 10) : (s.emit h).w = s.w >>> 7 := rfl
@[simp] theorem State.emit_phase (s : State) (h : s.len.val < 10) :
    (s.emit h).phase = if (pack s.w).c = 1#1 then .run else .done := rfl
@[simp] theorem State.emit_host (s : State) (h : s.len.val < 10) : (s.emit h).host = s.host := rfl
@[simp] theorem State.emit_edge (s : State) (h : s.len.val < 10) : (s.emit h).edge = s.edge := rfl

@[simp] theorem State.retire_phase (s : State) : s.retire.phase = .idle := rfl
@[simp] theorem State.retire_w (s : State) : s.retire.w = s.w := rfl
@[simp] theorem State.retire_buf (s : State) : s.retire.buf = s.buf := rfl
@[simp] theorem State.retire_len (s : State) : s.retire.len = s.len := rfl
@[simp] theorem State.retire_host (s : State) : s.retire.host = s.host := rfl
@[simp] theorem State.retire_edge (s : State) : s.retire.edge = s.edge := rfl

/-- A state whose schedule and edge count are those of `s.tick` sees the inputs of `s` one edge later. -/
theorem State.inputAt_of_tick {s t : State} (hh : t.host = s.host.tail) (he : t.edge = s.edge + 1) (k : Nat) :
    t.inputAt k = s.inputAt (k + 1) := by
  unfold State.inputAt
  rw [hh, he, List.getElem?_tail, Nat.add_right_comm s.edge 1 k, Nat.add_assoc]

/-- The inputs of the ticked state are those of the state, one edge later. -/
@[simp] theorem State.inputAt_tick (s : State) (k : Nat) : s.tick.inputAt k = s.inputAt (k + 1) :=
  State.inputAt_of_tick rfl rfl k

/-- The coming edge's inputs are the head of the schedule, when there is one. -/
@[simp] theorem State.input_cons (s : State) (i : Input) (is : List Input) (h : s.host = i :: is) : s.input = i := by
  simp [State.input, State.inputAt, h]

end Sys2Proof.Machine
end

