-- ==== Sys2Proof/Laws/Step.lean ====
section
/-! SUPPORT. What each shared operation, and so a step, can do: said once, cited instead of unfolding. -/

namespace Sys2Proof.Machine

open Host (Outcome)

/-- In `IDLE` a command is accepted (R92). -/
theorem accept_idle {t : Word} {s : State} (h : s.phase = .idle) : accept t s = .next (s.load t) := by
  simp [accept, h]

/-- Outside `IDLE` a command does nothing (R93, R94). -/
theorem accept_busy {t : Word} {s : State} (h : s.phase ≠ .idle) : accept t s = .next s := by
  unfold accept
  split <;> simp_all

/-- A run step with a free place in the buffer emits one byte (R93). -/
theorem runStep_next {s : State} (h : s.len.val < 10) : runStep s = .next (s.emit h) := dif_pos h

/-- The transformed value of a decoded command is that of its two fields (R92). -/
theorem exec_decodeWord {i : Input} {s : State} (h : s.phase = .idle) :
    exec (decodeWord i.word) s = .next (s.load (transformed i.cmdOp i.cmdValue)) := by
  unfold decodeWord transformed Input.word
  rw [opField_cmdWord, valueField_cmdWord]
  split
  · exact accept_idle h
  · exact accept_idle h

/-- An edge with `rst = 1` (R170). -/
theorem step_reset {s : State} (h : s.input.rst = true) : step s = .next s.tick.clear := by
  simp [step, clockEdge, h]

/-- An edge in `IDLE` with no command (R91). -/
theorem step_idle {s : State} (hr : s.input.rst = false) (hp : s.phase = .idle) (hv : s.input.cmdValid = false) :
    step s = .next s.tick := by
  simp [step, clockEdge, idleStep, hr, hp, hv]

/-- An accept edge runs the decoded command (R92). -/
theorem step_command {s : State} (hr : s.input.rst = false) (hp : s.phase = .idle) (hv : s.input.cmdValid = true) :
    step s = exec (decodeWord s.input.word) s.tick := by
  simp [step, clockEdge, idleStep, hr, hp, hv]

/-- An accept edge loads the transformed value (R92). -/
theorem step_accept {s : State} (hr : s.input.rst = false) (hp : s.phase = .idle) (hv : s.input.cmdValid = true) :
    step s = .next (s.tick.load (transformed s.input.cmdOp s.input.cmdValue)) :=
  (step_command hr hp hv).trans (exec_decodeWord hp)

/-- An edge in `RUN` (R93). -/
theorem step_run {s : State} (hr : s.input.rst = false) (hp : s.phase = .run) (h : s.tick.len.val < 10) :
    step s = .next (s.tick.emit h) := by
  have : step s = runStep s.tick := by simp [step, clockEdge, hr, hp]
  exact this.trans (runStep_next h)

/-- An edge in `DONE` with `rsp_ready = 0` (R94). -/
theorem step_hold {s : State} (hr : s.input.rst = false) (hp : s.phase = .done) (hq : s.input.rspReady = false) :
    step s = .next s.tick := by
  simp [step, clockEdge, doneStep, hr, hp, hq]

/-- An edge in `DONE` with `rsp_ready = 1` (R94). -/
theorem step_retire {s : State} (hr : s.input.rst = false) (hp : s.phase = .done) (hq : s.input.rspReady = true) :
    step s = .next s.tick.retire := by
  simp [step, clockEdge, doneStep, hr, hp, hq]

/-- What a step can do, whole (R95): if it answers a next state, one of these six cases holds. -/
theorem step_cases {s s' : State} (h : step s = .next s') :
    (s.input.rst = true ∧ s' = s.tick.clear) ∨
    (s.input.rst = false ∧ s.phase = .idle ∧ s.input.cmdValid = false ∧ s' = s.tick) ∨
    (s.input.rst = false ∧ s.phase = .idle ∧ s.input.cmdValid = true ∧
      s' = s.tick.load (transformed s.input.cmdOp s.input.cmdValue)) ∨
    (s.input.rst = false ∧ s.phase = .run ∧ ∃ hl : s.tick.len.val < 10, s' = s.tick.emit hl) ∨
    (s.input.rst = false ∧ s.phase = .done ∧ s.input.rspReady = false ∧ s' = s.tick) ∨
    (s.input.rst = false ∧ s.phase = .done ∧ s.input.rspReady = true ∧ s' = s.tick.retire) := by
  cases hr : s.input.rst with
  | true => rw [step_reset hr] at h; exact .inl ⟨rfl, by cases h; rfl⟩
  | false =>
    refine .inr ?_
    cases hp : s.phase with
    | idle =>
      cases hv : s.input.cmdValid with
      | false => rw [step_idle hr hp hv] at h; exact .inl ⟨rfl, rfl, rfl, by cases h; rfl⟩
      | true => rw [step_accept hr hp hv] at h; exact .inr (.inl ⟨rfl, rfl, rfl, by cases h; rfl⟩)
    | run =>
      refine .inr (.inr (.inl ⟨rfl, rfl, ?_⟩))
      by_cases hl : s.tick.len.val < 10
      · rw [step_run hr hp hl] at h; exact ⟨hl, by cases h; rfl⟩
      · have : step s = .refused .bufferFull := by 
          have : step s = runStep s.tick := by simp [step, clockEdge, hr, hp]
          exact this.trans (dif_neg hl)
        rw [this] at h; cases h
    | done =>
      refine .inr (.inr (.inr ?_))
      cases hq : s.input.rspReady with
      | false => rw [step_hold hr hp hq] at h; exact .inl ⟨rfl, rfl, rfl, by cases h; rfl⟩
      | true => rw [step_retire hr hp hq] at h; exact .inr ⟨rfl, rfl, rfl, by cases h; rfl⟩

/-- A step never faults: there is no fault (R150). -/
theorem step_not_fault (s : State) (r : Fault) : step s ≠ .fault r := nomatch r

/-- A step uses up one edge's inputs and changes nothing of those to come. -/
theorem step_schedule {s s' : State} (h : step s = .next s') : s'.host = s.host.tail ∧ s'.edge = s.edge + 1 := by
  rcases step_cases h with ⟨_, rfl⟩ | ⟨_, _, _, rfl⟩ | ⟨_, _, _, rfl⟩ | ⟨_, _, _, rfl⟩ | ⟨_, _, _, rfl⟩ |
    ⟨_, _, _, rfl⟩ <;> exact ⟨rfl, rfl⟩

/-- The inputs a state sees after a step are those of the state before, one edge later. -/
theorem step_inputAt {s s' : State} (h : step s = .next s') (k : Nat) : s'.inputAt k = s.inputAt (k + 1) :=
  State.inputAt_of_tick (step_schedule h).1 (step_schedule h).2 k

/-- The inputs of an edge at which a command is placed (spec/30_encoding.md R60). -/
@[simp] theorem placeCommand_input (s : State) (w : CmdWord) : (placeCommand s w).input = presents w :=
  State.input_cons _ _ _ rfl

/-- A placed command is on the command port as a word. -/
@[simp] theorem presents_word (w : CmdWord) : (presents w).word = w := cmdWord_fields w

/-- The edge after placing a command runs it. -/
theorem step_placeCommand (s : State) (w : CmdWord) :
    step (placeCommand s w) = exec (decodeWord w) (placeCommand s w).tick := by
  rw [step_command (by rw [placeCommand_input]; rfl) rfl (by rw [placeCommand_input]; rfl), placeCommand_input,
    presents_word]

end Sys2Proof.Machine
end

