-- ==== Sys2Proof/Laws/Run.lean ====
section
/-! SUPPORT. Runs of several edges: how they are composed and taken apart, and which inputs they use. -/

namespace Sys2Proof.Machine

/-- A run whose first step has a next state goes on from there. -/
theorem run_succ_next {M : Host.Core} {k : Nat} {s t : M.State} (h : M.step s = .next t) :
    M.run (k + 1) s = M.run k t := by
  rw [Host.Core.run]
  simp only [h]

/-- A run whose first step is refused is refused. -/
theorem run_succ_refused {M : Host.Core} {k : Nat} {s : M.State} {r : M.Refusal} (h : M.step s = .refused r) :
    M.run (k + 1) s = .refused r := by
  rw [Host.Core.run]
  simp only [h]

/-- No edge. -/
@[simp] theorem reaches_zero {s t : State} : Reaches 0 s t ↔ t = s := by
  constructor
  · intro h; cases h; rfl
  · rintro rfl; rfl

/-- One edge, then `k` more. -/
theorem reaches_succ_iff {k : Nat} {s u : State} : Reaches (k + 1) s u ↔ ∃ t, step s = .next t ∧ Reaches k t u := by
  unfold Reaches
  cases h : step s with
  | next t =>
    rw [run_succ_next (M := core) h]
    exact ⟨fun hu => ⟨t, rfl, hu⟩, by rintro ⟨_, h', hu⟩; cases h'; exact hu⟩
  | fault r => exact nomatch r
  | refused r =>
    rw [run_succ_refused (M := core) h]
    constructor
    · intro hu; exact absurd hu (by simp)
    · rintro ⟨_, h', _⟩; cases h'

/-- `k` edges, then one more. -/
theorem reaches_succ_last {k : Nat} {s u : State} : Reaches (k + 1) s u ↔ ∃ t, Reaches k s t ∧ step t = .next u := by
  induction k generalizing s with
  | zero => simp [reaches_succ_iff]
  | succ k ih =>
    rw [reaches_succ_iff]
    simp only [ih, reaches_succ_iff (k := k) (s := s)]
    constructor
    · rintro ⟨a, ha, b, hb, hu⟩; exact ⟨b, ⟨a, ha, hb⟩, hu⟩
    · rintro ⟨b, ⟨a, ha, hb⟩, hu⟩; exact ⟨a, ha, b, hb, hu⟩

/-- `k` edges, then `m` more. -/
theorem Reaches.trans {k m : Nat} {s t u : State} (h : Reaches k s t) (h' : Reaches m t u) : Reaches (k + m) s u := by
  induction m generalizing u with
  | zero => rw [reaches_zero] at h'; exact h' ▸ h
  | succ m ih =>
    obtain ⟨v, hv, hu⟩ := reaches_succ_last.1 h'
    exact reaches_succ_last.2 ⟨v, ih hv, hu⟩

/-- A run has one end. -/
theorem Reaches.unique {k : Nat} {s t u : State} (h : Reaches k s t) (h' : Reaches k s u) : t = u := by
  unfold Reaches at h h'
  rw [h] at h'
  cases h'; rfl

/-- The inputs a state sees after `k` edges are those of the start, `k` edges later. -/
theorem Reaches.inputAt {k : Nat} {s t : State} (h : Reaches k s t) (j : Nat) : t.inputAt j = s.inputAt (k + j) := by
  induction k generalizing t j with
  | zero => rw [reaches_zero] at h; rw [h, Nat.zero_add]
  | succ k ih =>
    obtain ⟨v, hv, ht⟩ := reaches_succ_last.1 h
    rw [step_inputAt ht, ih hv, Nat.add_right_comm, Nat.add_assoc]

/-- A property that holds at the start and that every step keeps holds at the end of every run. -/
theorem Reaches.induction {P : State → Prop} (hstep : ∀ s t, P s → step s = .next t → P t) {k : Nat} {s t : State}
    (h : Reaches k s t) (hs : P s) : P t := by
  induction k generalizing t with
  | zero => rw [reaches_zero] at h; exact h ▸ hs
  | succ k ih =>
    obtain ⟨v, hv, ht⟩ := reaches_succ_last.1 h
    exact hstep v t (ih hv) ht

end Sys2Proof.Machine
end

