-- ==== Sys2Proof/Machine/Script.lean ====
section
/-! DEFINITION. The host's script lines (spec/30_encoding.md R73): "they are not operations of the block" but say which
inputs a host drives at each edge, from the outputs it sees there. -/

namespace Sys2Proof.Machine

/-- A line of a host script (R72, R73). -/
inductive ScriptLine where
  /-- `ENCU ...` or `ENCS ...`: the command presented until the step at which `cmd_ready = 1` is seen. -/
  | command (i : Instr)
  /-- `RESET`: one step with `rst = 1`. -/
  | reset
  /-- `IDLE k`: `k` steps with nothing driven. -/
  | idle (k : Nat)
  /-- `TAKE`: `rsp_ready = 1` until the step at which `rsp_valid = 1` is seen. -/
  | take
  deriving DecidableEq, Repr

/-- No input driven. -/
def quiet : Input where
  rst := false
  cmdValid := false
  cmdOp := 0#1
  cmdValue := 0#64
  rspReady := false

/-- What a script drives at an edge at which the block shows its outputs, and what is left of the script after it (R73);
nothing when the script is at its end. -/
def scriptEdge : List ScriptLine → Block → Option (Input × List ScriptLine)
  | [], _ => none
  | .command i :: ls, b => some (presents (encode i), if b.cmdReady then ls else .command i :: ls)
  | .reset :: ls, _ => some ({ quiet with rst := true }, ls)
  | .idle 0 :: ls, b => scriptEdge ls b
  | .idle (k + 1) :: ls, _ => some (quiet, .idle k :: ls)
  | .take :: ls, b => some ({ quiet with rspReady := true }, if b.rspValid then ls else .take :: ls)

/-- Run a script for at most `fuel` edges, each edge's inputs being what the script drives there. -/
def runScript : (fuel : Nat) → List ScriptLine → State → Host.Outcome State Fault Refusal
  | 0, _, s => .next s
  | fuel + 1, ls, s =>
    match scriptEdge ls s.toBlock with
    | none => .next s
    | some (i, rest) =>
      match step { s with host := [i] } with
      | .next s' => runScript fuel rest s'
      | .fault r => .fault r
      | .refused r => .refused r

end Sys2Proof.Machine
end

