-- ==== Sys2Proof/Tests/Slice0.lean ====
section
/-! SUPPORT. The model's own tests. Expected results are the spec's: spec/95_test_vectors.md, cited by vector id, or the rule
named. The last part holds, for every statement with hypotheses, a witness that meets them. -/

namespace Sys2Proof.Tests

open Sys2Proof Sys2Proof.Machine

/-! ## Well-formedness and text (R63, R72) -/

theorem test_every_instr_wellFormed : (Instr.encu 0#64).wellFormed = true ∧
    (Instr.encs 0x8000000000000000#64).wellFormed = true := by decide

/-- One ill-formed term for each check on a literal: each is refused, and its neighbour in range is not. -/
theorem test_illFormed_refused :
    (CommandText.encu (2 ^ 64)).wellFormed = false ∧ (CommandText.encu (2 ^ 64)).toInstr = none ∧
    (CommandText.encsDecimal (2 ^ 63)).wellFormed = false ∧ (CommandText.encsDecimal (2 ^ 63)).toInstr = none ∧
    (CommandText.encsDecimal (-2 ^ 63 - 1)).wellFormed = false ∧ (CommandText.encsDecimal (-2 ^ 63 - 1)).toInstr = none ∧
    (CommandText.encsHex (2 ^ 64)).wellFormed = false ∧ (CommandText.encsHex (2 ^ 64)).toInstr = none ∧
    (CommandText.encu (2 ^ 64 - 1)).wellFormed = true ∧ (CommandText.encsDecimal (-2 ^ 63)).wellFormed = true ∧
    (CommandText.encsDecimal (2 ^ 63 - 1)).wellFormed = true ∧ (CommandText.encsHex (2 ^ 64 - 1)).wellFormed = true := by
  decide

/-- R72: "`ENCS -1` and `ENCS 0xFFFFFFFFFFFFFFFF` are the same command word `0x1_FFFF_FFFF_FFFF_FFFF`". -/
theorem test_text_minus_one :
    (CommandText.encsDecimal (-1)).toInstr = (CommandText.encsHex 0xFFFFFFFFFFFFFFFF).toInstr ∧
    (CommandText.encsDecimal (-1)).toInstr.map encode = some 0x1FFFFFFFFFFFFFFFF#65 := by decide

/-! ## Decoding and encoding: words written out from R60, R61 -/

/-- U4: bit 64 clear, then the 64 bits of 300. -/
theorem test_decode_encu :
    decodeWord 0b00000000000000000000000000000000000000000000000000000000100101100#65 = .encu 300#64 := by decide

/-- S7: bit 64 set, then bit 63 set and 63 zeros. -/
theorem test_decode_encs :
    decodeWord 0b11000000000000000000000000000000000000000000000000000000000000000#65 = .encs 0x8000000000000000#64 := by
  decide

/-- U5, S4: the encoder writes the words of the vectors. -/
theorem test_encode : encode (.encu 0xFFFFFFFFFFFFFFFF#64) = 0x0FFFFFFFFFFFFFFFF#65 ∧
    encode (.encs 0xFFFFFFFFFFFFFFFE#64) = 0x1FFFFFFFFFFFFFFFE#65 := by decide

/-- Table words: 65 bits in 9 bytes, `op` at bit 64; a bit above it is refused by name. -/
theorem test_decodeTableWord : decodeTableWord 72 300 = some (.encu 300#64) ∧
    decodeTableWord 65 0x1FFFFFFFFFFFFFF6A = some (.encs 0xFFFFFFFFFFFFFF6A#64) ∧ decodeTableWord 72 (2 ^ 65) = none ∧
    (match decode (2 ^ 65) with | .error .widerThanCommand => true | .ok _ => false) = true := by decide

/-- R25: the encodings of the phase register. -/
theorem test_phase_bits : Phase.bits .idle = 0b00#2 ∧ Phase.bits .run = 0b01#2 ∧ Phase.bits .done = 0b10#2 := by decide

/-! ## The functions -/

/-- G1: the ten groups of `0x0123456789ABCDEF`. -/
theorem test_groups : (List.range 10).map (group 0x0123456789ABCDEF#64) =
    [0x6F#7, 0x1B#7, 0x2F#7, 0x4D#7, 0x78#7, 0x2C#7, 0x51#7, 0x11#7, 0x01#7, 0x00#7] := by decide

/-- L2 to L6, L18, L19: lengths at the thresholds. -/
theorem test_lengths : nbytes 0x7F#64 = 1 ∧ nbytes 0x80#64 = 2 ∧ nbytes 0x3FFF#64 = 2 ∧ nbytes 0x4000#64 = 3 ∧
    nbytes 0x1FFFFF#64 = 3 ∧ nbytes 0x7FFFFFFFFFFFFFFF#64 = 9 ∧ nbytes 0x8000000000000000#64 = 10 := by decide

/-- DU11, DU21: a zero group below nonzero groups; alternating bits, ten bytes. -/
theorem test_encodeUnsigned : encodeUnsigned 0x4080#64 = [0x80#8, 0x81#8, 0x01#8] ∧
    encodeUnsigned 0xAAAAAAAAAAAAAAAA#64 =
      [0xAA#8, 0xD5#8, 0xAA#8, 0xD5#8, 0xAA#8, 0xD5#8, 0xAA#8, 0xD5#8, 0xAA#8, 0x01#8] := by decide

/-- DS10, DS25, S7: -150; the first negative ten-byte operand; the minimum signed value. -/
theorem test_encodeSigned : encodeSigned 0xFFFFFFFFFFFFFF6A#64 = [0xAB#8, 0x02#8] ∧
    encodeSigned 0xBFFFFFFFFFFFFFFF#64 =
      [0x81#8, 0x80#8, 0x80#8, 0x80#8, 0x80#8, 0x80#8, 0x80#8, 0x80#8, 0x80#8, 0x01#8] ∧
    encodeSigned 0x8000000000000000#64 =
      [0xFF#8, 0xFF#8, 0xFF#8, 0xFF#8, 0xFF#8, 0xFF#8, 0xFF#8, 0xFF#8, 0xFF#8, 0x01#8] := by decide

/-- DU12: the source's loop itself. -/
theorem test_packLoop : packLoop 10 0x98765#64 = [0xE5#8, 0x8E#8, 0x26#8] := by decide

/-- I8, I5: the inverse functions. -/
theorem test_inverses : unvarint [0xE5#8, 0x8E#8, 0x26#8] = 0x98765 ∧ unzigzag64 0x98765#64 = -312243 ∧
    unzigzag64 0xFFFFFFFFFFFFFFFF#64 = -9223372036854775808 := by decide

/-- I1, I3 are well formed; I9, I10, I11 are not. -/
theorem test_wellformedResult : wellformedResult [0x00#8] ∧ wellformedResult [0x80#8, 0x01#8] ∧
    ¬wellformedResult [0x80#8, 0x00#8] ∧ ¬wellformedResult [0x80#8] ∧
    ¬wellformedResult [0xFF#8, 0xFF#8, 0xFF#8, 0xFF#8, 0xFF#8, 0xFF#8, 0xFF#8, 0xFF#8, 0xFF#8, 0x02#8] := by decide

/-! ## Steps -/

/-- The inputs of an edge: `(rst, cmd_valid, cmd_op, cmd_value, rsp_ready)`, as section 2.6 of the vectors writes them. -/
def inp (rst valid : Bool) (op : BitVec 1) (value : Word) (ready : Bool) : Input :=
  { rst := rst, cmdValid := valid, cmdOp := op, cmdValue := value, rspReady := ready }

/-- A block whose buffer begins with these bytes, zeros above. -/
def blk (phase : Phase) (w : Word) (len : Fin 11) (b0 b1 b2 : Byte) : Block :=
  { phase := phase, w := w, buf := #v[b0, b1, b2, 0, 0, 0, 0, 0, 0, 0], len := len }

/-- A block at a schedule of inputs. -/
def at_ (b : Block) (ins : List Input) : State := { b with host := ins, edge := 0 }

/-- The block after one edge, if the step has a next state. -/
def after (b : Block) (i : Input) : Option Block :=
  match step (at_ b [i]) with
  | .next s => some s.toBlock
  | .fault _ => none
  | .refused _ => none

/-- The buffer of nine `0xFF` and a last byte. -/
def full (phase : Phase) (w : Word) (len : Fin 11) (last : Byte) : Block :=
  { phase := phase, w := w, buf := #v[0xFF, 0xFF, 0xFF, 0xFF, 0xFF, 0xFF, 0xFF, 0xFF, 0xFF, last], len := len }

/-- Q2, Q4: accept `ENCU`; accept clears leftovers. -/
theorem test_encu_accepted :
    after (blk .idle 0 0 0 0 0) (inp false true 0 0x12C false) = some (blk .run 0x12C 0 0 0 0) ∧
    after (full .idle 0 10 0x01) (inp false true 0 0x5 false) = some (blk .run 0x5 0 0 0 0) := by decide

/-- Q3 and edge 0 of program P2: accept `ENCS`, transform applied, the minimum signed value among its operands. -/
theorem test_encs_accepted :
    after (blk .idle 0 0 0 0 0) (inp false true 1 0x12C true) = some (blk .run 0x258 0 0 0 0) ∧
    after (blk .idle 0 0 0 0 0) (inp false true 1 0x8000000000000000 false) =
      some (blk .run 0xFFFFFFFFFFFFFFFF 0 0 0 0) := by decide

/-- Q1: idle, operand ignored. -/
theorem test_idle : after (blk .idle 0 0 0 0 0) (inp false false 1 0xFFFFFFFFFFFFFFFF true) =
    some (blk .idle 0 0 0 0 0) := by decide

/-- Q5 to Q9: run steps, the tenth byte among them. -/
theorem test_run :
    after (blk .run 0x12C 0 0 0 0) (inp false true 1 0x7 true) = some (blk .run 0x2 1 0xAC 0 0) ∧
    after (blk .run 0x2 1 0xAC 0 0) (inp false false 0 0 false) = some (blk .done 0 2 0xAC 0x02 0) ∧
    after (full .run 0x1 9 0x00) (inp false false 0 0 false) = some (full .done 0 10 0x01) ∧
    after (blk .run 0x7F 0 0 0 0) (inp false false 0 0 false) = some (blk .done 0 1 0x7F 0 0) ∧
    after (blk .run 0x80 0 0 0 0) (inp false false 0 0 false) = some (blk .run 0x1 1 0x80 0 0) := by decide

/-- Q10, Q11: hold; retire, the command not accepted in that step. -/
theorem test_done :
    after (blk .done 0 2 0xAC 0x02 0) (inp false true 0 0x9 false) = some (blk .done 0 2 0xAC 0x02 0) ∧
    after (blk .done 0 2 0xAC 0x02 0) (inp false true 0 0x9 true) = some (blk .idle 0 2 0xAC 0x02 0) := by decide

/-- Q12, Q13, Q14: reset beats retire, run and accept. -/
theorem test_reset :
    after (blk .done 0 2 0xAC 0x02 0) (inp true true 0 0x9 true) = some (blk .idle 0 0 0 0 0) ∧
    after (blk .run 0x2 1 0xAC 0 0) (inp true false 0 0 false) = some (blk .idle 0 0 0 0 0) ∧
    after (blk .idle 0 0 0 0 0) (inp true true 0 0x9 false) = some (blk .idle 0 0 0 0 0) := by decide

/-- Section 2.6, the outputs for the states of Q10, Q6 and Q4: shown, hidden while partial, hidden leftovers. -/
theorem test_outputs :
    ((blk .done 0 2 0xAC 0x02 0).rspLen = 2#4 ∧ (blk .done 0 2 0xAC 0x02 0).rspData = 0x000000000000000002AC#80) ∧
    ((blk .run 0x2 1 0xAC 0 0).cmdReady = false ∧ (blk .run 0x2 1 0xAC 0 0).rspData = 0#80) ∧
    ((full .idle 0 10 0x01).cmdReady = true ∧ (full .idle 0 10 0x01).rspLen = 0#4 ∧
      (full .idle 0 10 0x01).rspData = 0#80) := by decide

/-- The step after placing a table word from reset is the accept step of its command. -/
theorem test_withFetchWord :
    (match step (State.reset.withFetchWord 72 0x1FFFFFFFFFFFFFF6A) with
      | .next s => decide (s.phase = .run ∧ s.w = 0x12B#64) | .fault _ => false | .refused _ => false) = true := by decide

/-- Program P1 as a script of R73: `ENCU 300`, then `TAKE`; four edges and the end state of its trace. -/
theorem test_script :
    (match runScript 9 [.command (.encu 300), .take] State.reset with
      | .next s => decide (s.toBlock = blk .idle 0 2 0xAC 0x02 0 ∧ s.edge = 4) | .fault _ => false | .refused _ => false)
      = true := by decide

/-! ## Witnesses: for every statement with hypotheses, a state and operands that meet them all -/

/-- A command on the port of an idle block. -/
def idleCmd (op : BitVec 1) (v : Word) (rest : List Input) : State := at_ Block.reset (inp false true op v false :: rest)

/-- A block that has written nine of the ten bytes of `2^64 - 1`. -/
def nineWritten (ins : List Input) : State := at_ (full .run 0x1 9 0x00) ins

/-- A block that shows `[0xAC, 0x02]`. -/
def showing300 (ins : List Input) : State := at_ (blk .done 0 2 0xAC 0x02 0) ins

/-- Nothing driven, `n` times. -/
def quiets (n : Nat) : List Input := List.replicate n quiet

theorem witness_LiteralsSpellCommands : (2 ^ 64 ≤ 18446744073709551616) ∧ ((-2 ^ 63 - 1 : Int) < -2 ^ 63) ∧
    ((2 : Int) ^ 63 ≤ 9223372036854775808) := by decide

theorem witness_StepRunsTheDecodedCommand : (idleCmd 1 5 []).phase = .idle ∧ (idleCmd 1 5 []).input.rst = false ∧
    (idleCmd 1 5 []).input.cmdValid = true ∧ decodeWord (idleCmd 1 5 []).input.word = .encs 5 ∧
    decodeTableWord 72 (2 ^ 65 - 1) = some (.encs 0xFFFFFFFFFFFFFFFF#64) := by decide

theorem witness_EncuIsAccepted : (at_ (full .idle 0 10 0x01) []).phase = .idle := by decide

theorem witness_EncsIsAccepted : State.reset.phase = .idle := by decide

theorem witness_BusyCommandChangesNothing : (nineWritten []).phase ≠ .idle ∧ (showing300 []).phase ≠ .idle := by decide

theorem witness_ResetStateEverywhere : (showing300 [inp true true 0 9 true]).input.rst = true := by decide

theorem witness_ResetHoldsThenAccepts :
    let s := nineWritten [inp true true 0 9 true, inp true false 0 0 false, inp false true 1 5 false]
    (∀ k ≤ 1, (s.inputAt k).rst = true) ∧ (s.inputAt 2).rst = false ∧ (s.inputAt 2).cmdValid = true := by decide

theorem witness_PhaseTransitions :
    (step (idleCmd 0 0 []) = .next ((idleCmd 0 0 []).tick.load 0) ∧ (idleCmd 0 0 []).input.rst = false) ∧
    (step (nineWritten [quiet]) = .next ((nineWritten [quiet]).tick.emit (by decide)) ∧
      (nineWritten [quiet]).input.rst = false) ∧
    (step (showing300 [quiet]) = .next (showing300 [quiet]).tick ∧ (showing300 [quiet]).input.rst = false) ∧
    (step (showing300 [inp true false 0 0 false]) = .next (showing300 [inp true false 0 0 false]).tick.clear ∧
      (showing300 [inp true false 0 0 false]).input.rst = true) :=
  ⟨⟨rfl, rfl⟩, ⟨rfl, rfl⟩, ⟨rfl, rfl⟩, ⟨rfl, rfl⟩⟩

theorem witness_IdleStepChangesNothing : let s := at_ Block.reset [inp false false 1 7 true]
    s.input.rst = false ∧ s.phase = .idle ∧ s.input.cmdValid = false := by decide

theorem witness_AcceptStepWrites : let s := at_ (full .idle 0 10 0x01) [inp false true 1 0x8000000000000000 true]
    s.input.rst = false ∧ s.phase = .idle ∧ s.input.cmdValid = true := by decide

/-- R31 holds of the block that has written nine bytes. -/
theorem nineWritten_encoding (ins : List Input) : (nineWritten ins).Encoding 0xFFFFFFFFFFFFFFFF#64 := by
  unfold Block.Encoding
  change Phase.run = .run ∧ (9 : Fin 11).val ≤ 9 ∧ 0x1#64 = 0xFFFFFFFFFFFFFFFF#64 >>> (7 * (9 : Fin 11).val) ∧
    (∀ i (h : i < 10), (full .run 0x1 9 0x00).buf[i] =
      if i < (9 : Fin 11).val then varintByte 1#1 (group 0xFFFFFFFFFFFFFFFF#64 i) else 0x00#8) ∧
    (1 ≤ (9 : Fin 11).val → 0x1#64 ≠ 0#64)
  decide

/-- R32 holds of the block that shows the result of `ENCU 300`. -/
theorem showing300_showing (ins : List Input) : (showing300 ins).Showing 300#64 := by
  unfold Block.Showing
  change Phase.done = .done ∧ (2 : Fin 11).val = nbytes 300#64 ∧ 0#64 = 0#64 ∧
    (∀ i (h : i < 10), (blk .done 0 2 0xAC 0x02 0).buf[i] = if i < nbytes 300#64 then varintAt 300#64 i else 0x00#8)
  decide

theorem nineWritten_inv (ins : List Input) : (nineWritten ins).Inv := ⟨_, nineWritten_encoding ins⟩

theorem showing300_inv (ins : List Input) : (showing300 ins).Inv := ⟨_, showing300_showing ins⟩

theorem witness_RunStepEmitsOneByte : (nineWritten [quiet]).phase = .run ∧ (nineWritten [quiet]).Inv ∧
    (nineWritten [quiet]).input.rst = false ∧ (nineWritten [quiet]).len.val ≤ 9 :=
  ⟨rfl, nineWritten_inv _, rfl, by decide⟩

theorem witness_RunStepWithFullBufferStops : let s := at_ (full .run 0x1 10 0x01) [quiet]
    s.phase = .run ∧ s.len.val = 10 ∧ s.input.rst = false := by decide

theorem witness_DoneStepHoldsOrRetires :
    (let s := showing300 (quiets 3)
     s.input.rst = false ∧ s.phase = .done ∧ ∀ k < 3, (s.inputAt k).rst = false ∧ (s.inputAt k).rspReady = false) ∧
    (let s := showing300 [inp false true 0 9 true, inp false true 0 9 true]
     s.input.rst = false ∧ s.phase = .done ∧ s.input.rspReady = true ∧ s.tick.retire.input.rst = false ∧
       s.tick.retire.input.cmdValid = true) := by decide

theorem witness_IgnoredInputsHaveNoEffect :
    let s := showing300 [inp false true 1 5 false]
    let s' := showing300 [inp false false 0 9 false]
    s.toBlock = s'.toBlock ∧ s.input.rst = s'.input.rst ∧
    (s.input.rst = false → s.phase = .idle → s.input.cmdValid = s'.input.cmdValid) ∧
    (s.accepts = true → s.input.cmdOp = s'.input.cmdOp ∧ s.input.cmdValue = s'.input.cmdValue) ∧
    (s.input.rst = false → s.phase = .done → s.input.rspReady = s'.input.rspReady) ∧ step s = .next s.tick :=
  ⟨rfl, rfl, by decide, by decide, by decide, rfl⟩

theorem witness_OutputPorts : (blk .done 0 2 0xAC 0x02 0).phase = .done ∧ (full .idle 0 10 0x01).phase ≠ .done := by decide

theorem witness_GroupBits : (9 ≤ 9 ∧ 0 < 7 ∧ 7 * 9 + 0 ≤ 63) ∧ (9 ≤ 9 ∧ 6 < 7 ∧ ¬7 * 9 + 6 ≤ 63) := by decide

theorem witness_RestAndCont : cont 0x7F#64 0 = 0#1 ∧ cont 0x80#64 0 = 1#1 ∧ cont 0x80#64 9 = 0#1 := by decide

theorem witness_BitLength : bitlen 0#64 = 0 ∧ (300#64 ≠ 0#64 ∧ bitlen 300#64 = 9) := by decide

theorem witness_LengthForms : (127#64).toNat < 2 ^ 7 ∧ 2 ^ 7 ≤ (128#64).toNat ∧ 1 ≤ 2 ∧ 300#64 >>> (7 * 2) = 0#64 := by
  decide

theorem witness_VarintBytes : 1 < nbytes 300#64 ∧ 0 + 2 ≤ nbytes 300#64 := by decide

theorem witness_SourceLoopIsVarint : 10 ≤ 10 := by decide

theorem witness_ZigzagIsExact : signed64 0xFFFFFFFFFFFFFFFF#64 < 0 ∧ 0 ≤ signed64 0#64 := by decide

theorem witness_ZigzagBitLevel : (1 ≤ 1 ∧ 1 ≤ 63) ∧ (1 ≤ 63 ∧ 63 ≤ 63) ∧ (0x8000000000000000#64 : Word).msb = true := by
  decide

theorem witness_ZigzagBijective : 0 ≤ signed64 0x7FFFFFFFFFFFFFFF#64 ∧ signed64 0x8000000000000000#64 < 0 := by decide

theorem witness_SignedLength : (1 ≤ 1 ∧ 1 ≤ 9) ∧ (1 ≤ 9 ∧ 9 ≤ 9) := by decide

theorem witness_ContinuationBits : 1 < (varint 300#64).length ∧ ((showing300 []).Inv ∧ (showing300 []).rspValid = true) :=
  ⟨by decide, showing300_inv _, by decide⟩

theorem witness_MinimalForm : 2 ≤ (varint 300#64).length ∧ (varint 0#64).getLast? = some 0x00#8 ∧
    (varint 0x8000000000000000#64).length = 10 := by decide

theorem witness_WellformedExactlyResults : wellformedResult [0xAC#8, 0x02#8] ∧ [0xAC#8, 0x02#8] = varint 300#64 := by
  decide

theorem witness_LengthIsMonotone : (127#64).toNat ≤ (128#64).toNat ∧
    (signed64 (-64#64)).natAbs < (signed64 (-65#64)).natAbs := by decide

theorem witness_EveryStepKeepsInvariant : (showing300 [quiet]).Inv ∧ step (showing300 [quiet]) =
    .next (showing300 [quiet]).tick := ⟨showing300_inv _, rfl⟩

theorem witness_NoStepStops : (nineWritten []).Inv := nineWritten_inv _

theorem witness_RunNeverOverfillsBuffer : (nineWritten [quiet]).Inv ∧ (nineWritten [quiet]).phase = .run ∧
    (nineWritten [quiet]).len.val = 9 ∧ (nineWritten [quiet]).input.rst = false := ⟨nineWritten_inv _, rfl, rfl, rfl⟩

theorem witness_EncuDeliversVarint : (at_ Block.reset (quiets 2)).phase = .idle ∧
    (at_ Block.reset (quiets 2)).NoReset (nbytes 300#64) := by unfold State.NoReset; decide

theorem witness_EncsDeliversVarint : (at_ Block.reset (quiets 10)).phase = .idle ∧
    (at_ Block.reset (quiets 10)).NoReset (nbytes (zigzag64 0x8000000000000000#64)) := by unfold State.NoReset; decide

/-- `ENCU 300` accepted at the coming edge, nothing driven at the edges after it. -/
def accept300 (n : Nat) : State := idleCmd 0 300 (quiets n)

theorem witness_WorkingValueDuringCommand : (accept300 2).accepts = true ∧
    300#64 = transformed (accept300 2).input.cmdOp (accept300 2).input.cmdValue ∧ 2 ≤ nbytes 300#64 ∧
    (accept300 2).NoReset (2 + 1) ∧ 1 < 10 ∧ 1 < 2 := by unfold State.NoReset; decide

theorem witness_TerminatesWithinTenSteps : (accept300 2).accepts = true ∧
    300#64 = transformed (accept300 2).input.cmdOp (accept300 2).input.cmdValue ∧
    (accept300 2).NoReset (nbytes 300#64 + 1) ∧ 1 ≤ 1 ∧ 1 ≤ nbytes 300#64 := by unfold State.NoReset; decide

theorem witness_ResultOfCommand : (accept300 5).accepts = true ∧
    300#64 = transformed (accept300 5).input.cmdOp (accept300 5).input.cmdValue ∧
    (accept300 5).NoReset (nbytes 300#64 + 1) ∧
    ∀ j < 6, nbytes 300#64 < j → j ≤ nbytes 300#64 + 3 →
      ((accept300 5).inputAt j).rst = false ∧ ((accept300 5).inputAt j).rspReady = false := by
  unfold State.NoReset; decide

theorem witness_SpacingOfAccepts :
    let s := at_ Block.reset (List.replicate 5 (inp false true 1 0xFFFFFFFFFFFFFF6A true))
    s.accepts = true ∧ 0x12B#64 = transformed s.input.cmdOp s.input.cmdValue ∧
    ∀ k ≤ nbytes 0x12B#64 + 2,
      (s.inputAt k).rst = false ∧ (s.inputAt k).cmdValid = true ∧ (s.inputAt k).rspReady = true := by decide

theorem witness_DoneWaitsForTheHost :
    let s := showing300 [quiet, quiet, inp false true 0 9 true]
    s.phase = .done ∧ (∀ k < 2, (s.inputAt k).rst = false ∧ (s.inputAt k).rspReady = false) ∧
    (s.inputAt 2).rst = false ∧ (s.inputAt 2).rspReady = true := by decide

theorem witness_ResultDependsOnCommandOnly :
    let s := accept300 2
    let s' := at_ (full .idle 0 10 0x01) (inp false true 0 300 true :: List.replicate 2 (inp false true 1 7 true))
    s.accepts = true ∧ s'.accepts = true ∧ s.input.word = s'.input.word ∧
    s.NoReset (nbytes (transformed s.input.cmdOp s.input.cmdValue) + 1) ∧
    s'.NoReset (nbytes (transformed s.input.cmdOp s.input.cmdValue) + 1) := by unfold State.NoReset; decide

/-- From reset, `ENCU 5`: two edges later its result is shown. -/
theorem witness_PortsShowTheAcceptedCommand :
    ∃ u, Reaches 2 (State.launched [inp false true 0 5 false, quiet]) u ∧ u.rspValid = true :=
  ⟨_, reaches_succ_iff.2 ⟨_, rfl, reaches_succ_iff.2 ⟨_, rfl, reaches_zero.2 rfl⟩⟩, rfl⟩

/-- From reset, after one edge the command is in hand and nothing is shown. -/
theorem witness_PortsShowNothing :
    ∃ u, Reaches 1 (State.launched [inp false true 0 5 false, quiet]) u ∧ u.rspValid = false :=
  ⟨_, reaches_succ_iff.2 ⟨_, rfl, reaches_zero.2 rfl⟩, rfl⟩

theorem witness_LengthBound :
    ∃ u, Reaches 2 (State.launched [inp false true 1 5 false, quiet]) u ∧ u.rspValid = true :=
  ⟨_, reaches_succ_iff.2 ⟨_, rfl, reaches_succ_iff.2 ⟨_, rfl, reaches_zero.2 rfl⟩⟩, rfl⟩

end Sys2Proof.Tests
end

section
/-! SUPPORT. The result ports in `DONE` and outside it (spec/10_state.md R29), and the block's part of a reset edge
(spec/70_reset_and_hazards.md R170). -/

namespace Sys2Proof.Machine

/-- The 4 bits of `rsp_len` hold every value of `LEN` (0 to 10), so nothing is cut off (R9, R29). -/
theorem Block.rspLen_toNat_of_done {b : Block} (h : b.phase = .done) : b.rspLen.toNat = b.len.val := by
  have hfits : b.len.val < 2 ^ 4 := Nat.lt_trans b.len.isLt (by decide)
  rw [Block.rspLen, if_pos ((rspValid_iff b).2 h), BitVec.toNat_ofNat, Nat.mod_eq_of_lt hfits]

theorem Block.rspData_of_done {b : Block} (h : b.phase = .done) : b.rspData = b.bus :=
  if_pos ((rspValid_iff b).2 h)

theorem Block.showsNothing_of_not_done {b : Block} (h : b.phase ≠ .done) : b.ShowsNothing := by
  have hv : ¬ b.rspValid = true := mt (rspValid_iff b).1 h
  exact ⟨Bool.eq_false_of_not_eq_true hv, if_neg hv, if_neg hv⟩

/-- A reset edge exists from every state and leaves the block in `S_reset`; the model's own fields move on (R170). -/
theorem step_reset_toBlock {s : State} (h : s.input.rst = true) :
    ∃ t, step s = .next t ∧ t.toBlock = Block.reset :=
  ⟨s.tick.clear, step_reset h, s.tick.clear_toBlock⟩

end Sys2Proof.Machine
end

section
/-! PROOFS. The state and its output ports (spec/10_state.md R29, R36). -/

namespace Sys2Proof.Machine

/-- Settles O18: each port is read off the phase, and `rsp_len` loses nothing of `LEN`. -/
theorem outputPorts : Obligations.OutputPorts := by
  intro b
  refine ⟨cmdReady_iff b, rspValid_iff b, fun hdone => ?_, fun hne => ?_⟩
  · exact ⟨Block.rspLen_toNat_of_done hdone, Block.rspData_of_done hdone⟩
  · obtain ⟨-, hlen, hdata⟩ := Block.showsNothing_of_not_done hne
    exact ⟨hlen, hdata⟩

/-- Settles O9: the reset state is idle, hence ready and showing nothing, and every reset edge leads to it. -/
theorem resetStateEverywhere : Obligations.ResetStateEverywhere := by
  have hidle : State.reset.phase = .idle := Block.reset_phase
  have hnotDone : State.reset.phase ≠ .done := by rw [hidle]; decide
  have hbuf : ∀ i (h : i < 10), State.reset.buf[i] = 0x00#8 := fun i h => Vector.getElem_replicate h
  exact ⟨⟨hidle, Block.reset_w, hbuf, rfl⟩,
    ⟨(cmdReady_iff _).2 hidle, Block.showsNothing_of_not_done hnotDone⟩,
    fun _ hrst => step_reset_toBlock hrst⟩

end Sys2Proof.Machine
end

section
/-! SUPPORT. A result bus is determined by its lanes, and the lanes of a block's bus are the bytes of `BUF`
(spec/20_memory.md R43). -/

namespace Sys2Proof.Machine

/-- Lane `i` is digit `i` of the bus in base `2 ^ 8`. -/
theorem lane_toNat (d : BitVec 80) (i : Nat) : (lane d i).toNat = d.toNat / 2 ^ (8 * i) % 2 ^ 8 := by
  rw [lane, BitVec.extractLsb'_toNat, Nat.shiftRight_eq_div_pow]

/-- The lowest `n` lanes hold the bus up to bit `8n`: one more lane is one more digit. -/
theorem sum_lanes_eq_mod (d : BitVec 80) (n : Nat) :
    ((List.range n).map fun i => (lane d i).toNat * 2 ^ (8 * i)).sum = d.toNat % 2 ^ (8 * n) := by
  induction n with
  | zero => exact (Nat.mod_one _).symm
  | succ n ih =>
    have hsplit : d.toNat % 2 ^ (8 * (n + 1)) =
        d.toNat % 2 ^ (8 * n) + 2 ^ (8 * n) * (d.toNat / 2 ^ (8 * n) % 2 ^ 8) := by
      rw [Nat.mul_succ, Nat.pow_add, Nat.mod_mul]
    rw [List.sum_range_succ, ih, hsplit, lane_toNat, Nat.mul_comm (2 ^ (8 * n))]

/-- All ten lanes hold the whole bus. -/
theorem toNat_eq_sum_lanes (d : BitVec 80) :
    d.toNat = ((List.range 10).map fun i => (lane d i).toNat * 2 ^ (8 * i)).sum := by
  rw [sum_lanes_eq_mod, Nat.mod_eq_of_lt d.isLt]

/-- Dropping the `i` lowest bytes of the concatenation leaves `BUF[i]` lowest; under `BUF[9]` nothing is left. -/
theorem Block.lane_bus (b : Block) {i : Nat} (h : i < 10) : lane b.bus i = b.buf[i] := by
  match i, h with
  | 0, _ | 1, _ | 2, _ | 3, _ | 4, _ | 5, _ | 6, _ | 7, _ | 8, _ =>
    simp only [lane, Block.bus, lane_append_succ, -Nat.reduceMul]
    exact lane_append_zero _ _
  | 9, _ =>
    simp only [lane, Block.bus, lane_append_succ, -Nat.reduceMul]
    exact BitVec.extractLsb'_eq_self

end Sys2Proof.Machine
end

section
/-! PROOFS. The result buffer on the result bus (spec/20_memory.md R43). -/

namespace Sys2Proof.Machine

/-- Settles O19: the bus is the sum of its lanes, and each lane is the byte of `BUF` with its index. -/
theorem busLanes : Obligations.BusLanes := by
  intro b
  refine ⟨fun _ h => b.lane_bus h, ?_⟩
  have hlane : ∀ i ∈ List.range 10,
      (lane b.bus i).toNat * 2 ^ (8 * i) = (b.buf[i]?.getD 0x00#8).toNat * 2 ^ (8 * i) := by
    intro i hi
    have h : i < 10 := List.mem_range.1 hi
    rw [b.lane_bus h, Vector.getElem?_eq_getElem h, Option.getD_some]
  rw [toNat_eq_sum_lanes b.bus, List.map_congr_left hlane]

end Sys2Proof.Machine
end

section
/-! SUPPORT. What a state that meets the invariant shows in `DONE` (spec/10_state.md R32), and bit 7 of a lane
(spec/20_memory.md R43). -/

namespace Sys2Proof.Machine

/-- The invariant's case for `DONE` (R32). -/
theorem Block.Inv.exists_showing {b : Block} (hinv : b.Inv) (hdone : b.phase = .done) : ∃ t, b.Showing t := by
  rw [Block.Inv, hdone] at hinv
  exact hinv

theorem Block.Showing.rspLen_toNat {b : Block} {t : Word} (h : b.Showing t) : b.rspLen.toNat = nbytes t := by
  obtain ⟨hdone, hlen, -, -⟩ := h
  rw [Block.rspLen_toNat_of_done hdone, hlen]

/-- Bytes of the result carry its continuation bits; the bytes above are zero and lie past the last byte anyway. -/
theorem Block.Showing.msb_buf {b : Block} {t : Word} (h : b.Showing t) {i : Nat} (hi : i < 10) :
    b.buf[i].msb = decide (i + 1 < nbytes t) := by
  obtain ⟨-, -, -, hbuf⟩ := h
  rw [hbuf i hi]
  split
  next => exact msb_varintAt t i
  next hpad =>
    have hpast : ¬ i + 1 < nbytes t := by omega
    rw [decide_eq_false hpast]
    rfl

theorem msb_lane (d : BitVec 80) (i : Nat) : (lane d i).msb = d.getLsbD (8 * i + 7) := by
  rw [BitVec.msb_eq_getLsbD_last, lane, BitVec.getLsbD_extractLsb']
  rfl

/-- In `DONE`, bit 7 of lane `i` of `rsp_data` is bit 7 of `BUF[i]`. -/
theorem Block.rspData_getLsbD_seven {b : Block} (hdone : b.phase = .done) {i : Nat} (hi : i < 10) :
    b.rspData.getLsbD (8 * i + 7) = b.buf[i].msb := by
  rw [Block.rspData_of_done hdone, ← msb_lane, b.lane_bus hi]

end Sys2Proof.Machine
end

section
/-! PROOFS. The continuation bits of a result (spec/30_encoding.md R66, spec/43_properties_and_inverse.md R136). -/

namespace Sys2Proof.Machine

/-- Settles O47: a state that meets the invariant and shows a result shows the varint of some value, whose
continuation bits say which byte is the last. -/
theorem continuationBits : Obligations.ContinuationBits := by
  refine ⟨fun t i h => ?_, fun s hinv hvalid => ?_⟩
  · rw [getElem_varint, length_varint]
    exact msb_varintAt t i
  · have hdone : s.phase = .done := (rspValid_iff _).1 hvalid
    obtain ⟨t, hshow⟩ := Block.Inv.exists_showing hinv hdone
    rw [hshow.rspLen_toNat]
    refine ⟨⟨one_le_nbytes t, nbytes_le_ten t⟩, fun i hi => ⟨hshow.msb_buf hi, ?_⟩⟩
    rw [Block.rspData_getLsbD_seven hdone hi]
    exact hshow.msb_buf hi

end Sys2Proof.Machine
end

section
/-! SUPPORT. One iteration of the packer and the run step made of it (spec/40_packer_and_sequencer.md R88, R93), and the
run of a block that is left alone in `DONE` (R94). -/

namespace Sys2Proof.Machine

theorem pack_c (w : Word) : (pack w).c = if w >>> 7 ≠ 0#64 then 1#1 else 0#1 := by
  rw [ite_not]
  exact nonzero_eq _

theorem pack_c_eq_one_iff (w : Word) : (pack w).c = 1#1 ↔ w >>> 7 ≠ 0#64 := by
  rw [pack_c]
  split <;> simp [*]

/-- The byte emitted is the zero test of what is left, above the low seven bits. -/
theorem pack_byte (w : Word) :
    (pack w).byte = varintByte (if w >>> 7 ≠ 0#64 then 1#1 else 0#1) (w.extractLsb' 0 7) := by
  rw [Packed.byte, pack_c, ← BitVec.setWidth_eq_extractLsb' (by decide)]
  rfl

/-- A run step writes `BUF[LEN]` and no other byte. -/
theorem State.getElem_emit_buf (s : State) (hfree : s.len.val < 10) {i : Nat} (hi : i < 10) :
    (s.emit hfree).buf[i] = if i = s.len.val then (pack s.w).byte else s.buf[i] := by
  simp only [State.emit_buf, Vector.getElem_set]
  exact if_congr eq_comm rfl rfl

theorem State.emit_phase_eq (s : State) (hfree : s.len.val < 10) :
    (s.emit hfree).phase = if s.w >>> 7 ≠ 0#64 then .run else .done :=
  (s.emit_phase hfree).trans (if_congr (pack_c_eq_one_iff s.w) rfl rfl)

/-- The invariant's case for `RUN` (R31). -/
theorem Block.Inv.exists_encoding {b : Block} (hinv : b.Inv) (hrun : b.phase = .run) : ∃ t, b.Encoding t := by
  rw [Block.Inv, hrun] at hinv
  exact hinv

theorem Block.Encoding.len_le_nine {b : Block} {t : Word} (h : b.Encoding t) : b.len.val ≤ 9 := by
  obtain ⟨-, hlen, -⟩ := h
  exact hlen

/-- In `DONE` the block keeps its state for as long as the host neither takes the result nor resets. -/
theorem exists_reaches_held {s : State} (hdone : s.phase = .done) {m : Nat}
    (hheld : ∀ k < m, (s.inputAt k).rst = false ∧ (s.inputAt k).rspReady = false) :
    ∃ t, Reaches m s t ∧ t.toBlock = s.toBlock := by
  induction m with
  | zero => exact ⟨s, reaches_zero.2 rfl, rfl⟩
  | succ m ih =>
    obtain ⟨t, hreach, hblock⟩ := ih fun k hk => hheld k (Nat.lt_succ_of_lt hk)
    have hinput : t.input = s.inputAt m := hreach.inputAt 0
    obtain ⟨hrst, hready⟩ := hheld m (Nat.lt_succ_self m)
    rw [← hinput] at hrst hready
    have hstep : step t = .next t.tick := step_hold hrst (by rw [hblock, hdone]) hready
    exact ⟨t.tick, reaches_succ_last.2 ⟨t, hreach, hstep⟩, hblock⟩

end Sys2Proof.Machine
end

section
/-! PROOFS. The step, phase by phase, without reset (spec/40_packer_and_sequencer.md R91 to R94). -/

namespace Sys2Proof.Machine

/-- Settles O12: the edge passes and nothing else happens. -/
theorem idleStepChangesNothing : Obligations.IdleStepChangesNothing := by
  intro s hrst hidle hvalid
  exact ⟨s.tick, step_idle hrst hidle hvalid, s.tick_toBlock⟩

/-- Settles O13: the accept edge is the load of the transformed value, which the operation select chooses. -/
theorem acceptStepWrites : Obligations.AcceptStepWrites := by
  intro s hrst hidle hvalid
  refine ⟨_, step_accept hrst hidle hvalid, State.load_phase _ _, ?_, fun i h => ?_, State.load_w _ _⟩
  · rw [State.load_len]
    rfl
  · simp only [State.load_buf, Vector.getElem_replicate]

/-- Settles O14: the invariant leaves a free place in the buffer, and with one the run step is the emission of one
byte of the packer. -/
theorem runStepEmitsOneByte : Obligations.RunStepEmitsOneByte := by
  intro s hrun
  refine ⟨fun hinv => ?_, fun hrst hlen => ?_⟩
  · obtain ⟨t, henc⟩ := Block.Inv.exists_encoding hinv hrun
    exact henc.len_le_nine
  · have hfree : s.tick.len.val < 10 := Nat.lt_succ_of_le hlen
    refine ⟨s.tick.emit hfree, step_run hrst hrun hfree, fun i h => ?_, State.emit_len _ _, State.emit_w _ _,
      State.emit_phase_eq _ _⟩
    rw [State.getElem_emit_buf, pack_byte, State.tick_toBlock]

/-- Settles O16: in `DONE` the command port is closed; a held block shows what it showed; a retired one is idle, so it
shows nothing and its command port is open. -/
theorem doneStepHoldsOrRetires : Obligations.DoneStepHoldsOrRetires := by
  intro s hrst hdone
  refine ⟨?_, fun m hheld => ?_, fun hready => ?_⟩
  · refine Bool.eq_false_of_not_eq_true fun hacc => ?_
    obtain ⟨-, hidle, -⟩ := (accepts_iff s).1 hacc
    rw [hdone] at hidle
    cases hidle
  · obtain ⟨t, hreach, hblock⟩ := exists_reaches_held hdone hheld
    exact ⟨t, hreach, hblock, by rw [hblock], by rw [hblock], by rw [hblock]⟩
  · have hidle : s.tick.retire.phase = .idle := State.retire_phase _
    have hnotDone : s.tick.retire.phase ≠ .done := by rw [hidle]; decide
    exact ⟨s.tick.retire, step_retire hrst hdone hready, hidle, State.retire_w _, State.retire_buf _,
      State.retire_len _, Block.showsNothing_of_not_done hnotDone,
      fun hrst' hvalid' => (accepts_iff _).2 ⟨hrst', hidle, hvalid'⟩⟩

end Sys2Proof.Machine
end

section
/-! SUPPORT. Groups and continuation bits, bit by bit (spec/40_packer_and_sequencer.md R80, R82). -/

namespace Sys2Proof.Machine

theorem getLsbD_group (t : Word) (i : Nat) {k : Nat} (hk : k < 7) :
    (group t i).getLsbD k = t.getLsbD (7 * i + k) := by
  rw [group, BitVec.getLsbD_setWidth, BitVec.getLsbD_ushiftRight, decide_eq_true hk, Bool.true_and]

/-- Only bit 63 is left for group 9: `64 = 7 * 9 + 1` (R80). -/
theorem group_nine (t : Word) : group t 9 = if t.msb then 1#7 else 0#7 := by
  have hmsb : t.msb = true ↔ 2 ^ 63 ≤ t.toNat := by simp [BitVec.msb_eq_decide]
  have hlt : t.toNat < 2 ^ 64 := t.isLt
  apply BitVec.eq_of_toNat_eq
  rw [toNat_group]
  split
  next h =>
    rw [hmsb] at h
    change t.toNat / 2 ^ 63 % 128 = 1
    omega
  next h =>
    rw [hmsb] at h
    change t.toNat / 2 ^ 63 % 128 = 0
    omega

/-- A value reaches `2 ^ n` exactly when some bit of it at position `n` or above is 1. -/
theorem two_pow_le_toNat_iff_exists_bit (t : Word) (n : Nat) :
    2 ^ n ≤ t.toNat ↔ ∃ k, n ≤ k ∧ k < 64 ∧ t.getLsbD k = true := by
  constructor
  · intro hle
    obtain ⟨k, hk, hbit⟩ := Nat.exists_ge_and_testBit_of_ge_two_pow hle
    exact ⟨k, hk, BitVec.lt_of_getLsbD hbit, hbit⟩
  · rintro ⟨k, hk, -, hbit⟩
    calc 2 ^ n ≤ 2 ^ k := Nat.pow_le_pow_right (by decide) hk
      _ ≤ t.toNat := Nat.ge_two_pow_of_testBit hbit

theorem cont_eq_one_iff_rest_ne_zero (t : Word) (i : Nat) : cont t i = 1#1 ↔ rest t i ≠ 0#64 := by
  rw [cont_eq_one_iff, rest, Ne, shift_eq_zero_iff, Nat.not_lt]

/-- The clear continuation bit as a bound on the length (R84 (b)); `cont_eq_one_iff_lt` is the set one. -/
theorem cont_eq_zero_iff_nbytes_le (t : Word) (i : Nat) : cont t i = 0#1 ↔ nbytes t ≤ i + 1 := by
  rw [cont_eq_zero_iff, ← nbytes_le_iff t (Nat.succ_pos i)]

end Sys2Proof.Machine
end

section
/-! PROOFS. The packer's functions (spec/40_packer_and_sequencer.md R80, R82, R86). -/

namespace Sys2Proof.Machine

/-- Settles O20: a group is a window of seven bits, and positions past bit 63 read as 0. -/
theorem groupBits : Obligations.GroupBits := by
  intro t i _
  refine ⟨toNat_group t i, fun k hk => ?_, ?_⟩
  · rw [getLsbD_group t i hk]
    split
    next => rfl
    next hout => exact BitVec.getLsbD_of_ge _ _ (by omega)
  · rintro rfl
    exact group_nine t

/-- Settles O22: all three readings of the continuation bit compare `t` with `2 ^ (7 * (i + 1))`; and once no byte
follows byte `i`, none follows a later one. -/
theorem restAndCont : Obligations.RestAndCont := by
  intro t
  have hrest : rest t 9 = 0#64 := (shift_eq_zero_iff t 70).2 (Nat.lt_trans t.isLt (by decide))
  refine ⟨hrest, fun i _ => ⟨toNat_shift t _, cont_eq_one_iff_rest_ne_zero t i, ?_, fun hzero j hij => ?_⟩⟩
  · rw [cont_eq_one_iff, two_pow_le_toNat_iff_exists_bit]
  · rw [cont_eq_zero_iff_nbytes_le] at hzero ⊢
    omega

/-- Settles O25: byte `i` is `{cont, group}` as a number, and byte `i` is followed by another exactly when `i + 1` is
below the length. -/
theorem varintBytes : Obligations.VarintBytes := by
  intro t
  have hlen : (varint t).length = nbytes t := length_varint t
  refine ⟨hlen, fun i hi => ?_, fun i hi => (cont_eq_one_iff_lt t i).2 hi, ?_⟩
  · have hi' : i < (varint t).length := by rwa [hlen]
    refine ⟨varintAt t i, ?_, toNat_varintByte _ _⟩
    rw [List.getElem?_eq_getElem hi', getElem_varint]
  · rw [cont_eq_zero_iff_nbytes_le]
    omega

end Sys2Proof.Machine
end

section
/-! SUPPORT. The shortest results: a value below `2 ^ 7` is its own byte, and one below `2 ^ 14` is two groups
(spec/40_packer_and_sequencer.md R84, R86). -/

namespace Sys2Proof.Machine

/-- The last byte of a result has a clear continuation bit. -/
theorem varintAt_last {t : Word} {i : Nat} (h : t.toNat < 2 ^ (7 * (i + 1))) :
    varintAt t i = varintByte 0#1 (group t i) := by
  rw [varintAt, (cont_eq_zero_iff t i).2 h]

theorem varint_eq_singleton {t : Word} (h : t.toNat < 2 ^ 7) : varint t = [varintByte 0#1 (group t 0)] := by
  have hle : nbytes t ≤ 1 := (nbytes_le_iff t le_rfl).2 h
  have hlen : nbytes t = 1 := le_antisymm hle (one_le_nbytes t)
  have hlast : varintAt t 0 = varintByte 0#1 (group t 0) := varintAt_last h
  rw [varint, hlen, ← hlast, List.range_one, List.map_singleton]

theorem varint_eq_pair {t : Word} (hlow : 2 ^ 7 ≤ t.toNat) (hhigh : t.toNat < 2 ^ 14) :
    varint t = [varintByte 1#1 (group t 0), varintByte 0#1 (group t 1)] := by
  have hcont : cont t 0 = 1#1 := (cont_eq_one_iff t 0).2 hlow
  have hle : nbytes t ≤ 2 := (nbytes_le_iff t one_le_two).2 hhigh
  have hlen : nbytes t = 2 := le_antisymm hle ((cont_eq_one_iff_lt t 0).1 hcont)
  have hlast : varintAt t 1 = varintByte 0#1 (group t 1) := varintAt_last hhigh
  rw [varint, hlen, ← hlast, ← hcont]
  rfl

end Sys2Proof.Machine
end

section
/-! PROOFS. The concrete cases the source prints (spec/41_encu.md R111, spec/42_encs.md R126). -/

namespace Sys2Proof.Machine

/-- The unsigned cases stand on both sides of the step from one byte to two (R111). -/
theorem encodeUnsigned_source_cases :
    encodeUnsigned 0#64 = [0x00#8] ∧ encodeUnsigned 127#64 = [0x7F#8] ∧ encodeUnsigned 128#64 = [0x80#8, 0x01#8] ∧
      encodeUnsigned 300#64 = [0xAC#8, 0x02#8] :=
  ⟨varint_eq_singleton (by decide), varint_eq_singleton (by decide), varint_eq_pair (by decide) (by decide),
    varint_eq_pair (by decide) (by decide)⟩

/-- The transform sends the signed numbers of smallest magnitude to 0, 1, 2, 3 and 4, one byte each (R126). -/
theorem encodeSigned_small_source_cases :
    encodeSigned 0#64 = [0x00#8] ∧ encodeSigned (-1#64) = [0x01#8] ∧ encodeSigned 1#64 = [0x02#8] ∧
      encodeSigned (-2#64) = [0x03#8] ∧ encodeSigned 2#64 = [0x04#8] :=
  ⟨varint_eq_singleton (by decide), varint_eq_singleton (by decide), varint_eq_singleton (by decide),
    varint_eq_singleton (by decide), varint_eq_singleton (by decide)⟩

/-- The minimum signed value is transformed to all ones, whose result is the longest there is (R122, R126). -/
theorem encodeSigned_minimum :
    encodeSigned 0x8000000000000000#64 =
      [0xFF#8, 0xFF#8, 0xFF#8, 0xFF#8, 0xFF#8, 0xFF#8, 0xFF#8, 0xFF#8, 0xFF#8, 0x01#8] := by
  have hones : signedOperand 0x8000000000000000#64 = BitVec.allOnes 64 := by decide
  rw [encodeSigned, hones]
  decide

/-- Settles O33: one-byte and two-byte results, and the ten-byte result of the minimum signed value. -/
theorem sourceExamples : Obligations.SourceExamples :=
  ⟨encodeUnsigned_source_cases, encodeSigned_minimum, encodeSigned_small_source_cases⟩

end Sys2Proof.Machine
end

section
/-! PROOFS. The zigzag transform in the integers (spec/42_encs.md R120). -/

namespace Sys2Proof.Machine

theorem zigzagInt_of_neg {s : Int} (h : s < 0) : zigzagInt s = 2 * ((-s) - 1) + 1 := if_pos h

theorem zigzagInt_of_nonneg {s : Int} (h : 0 ≤ s) : zigzagInt s = 2 * s := if_neg (Int.not_lt.2 h)

/-- Storing the transform in 64 bits loses nothing: its value is in range for every pattern (R120). -/
theorem toNat_zigzag64 (v : Word) : ((zigzag64 v).toNat : Int) = zigzagInt (signed64 v) := by
  obtain ⟨hlow, hhigh⟩ := signed64_range v
  obtain ⟨hnonneg, hlt⟩ := zigzagInt_range hlow hhigh
  have hfits : zigzagInt (signed64 v) < (2 ^ 64 : Nat) := by exact_mod_cast hlt
  rw [zigzag64, BitVec.toNat_ofInt, Int.emod_eq_of_lt hnonneg hfits, Int.toNat_of_nonneg hnonneg]

theorem toNat_zigzag64_of_neg {v : Word} (h : signed64 v < 0) :
    ((zigzag64 v).toNat : Int) = 2 * ((-signed64 v) - 1) + 1 := by
  rw [toNat_zigzag64, zigzagInt_of_neg h]

theorem toNat_zigzag64_of_nonneg {v : Word} (h : 0 ≤ signed64 v) : ((zigzag64 v).toNat : Int) = 2 * signed64 v := by
  rw [toNat_zigzag64, zigzagInt_of_nonneg h]

/-- Settles O28: the value in the integers, by the sign of the number meant; the parity is that of the value. -/
theorem zigzagIsExact : Obligations.ZigzagIsExact := by
  intro v
  refine ⟨fun hneg => ?_, fun hnonneg => ?_⟩
  · have hval := toNat_zigzag64_of_neg hneg
    exact ⟨hval, by omega⟩
  · have hval := toNat_zigzag64_of_nonneg hnonneg
    exact ⟨hval, by omega⟩

end Sys2Proof.Machine
end

section
/-! PROOFS. The minimum signed value (spec/42_encs.md R122). -/

namespace Sys2Proof.Machine

theorem signed64_minimum : signed64 0x8000000000000000#64 = -2 ^ 63 := by decide

/-- The exact transform of `-2^63` is `2 * (2^63 - 1) + 1`, the greatest 64-bit value (R122). -/
theorem zigzag64_minimum : zigzag64 0x8000000000000000#64 = 0xFFFFFFFFFFFFFFFF#64 := by
  have hneg : signed64 0x8000000000000000#64 < 0 := by rw [signed64_minimum]; decide
  have hval := toNat_zigzag64_of_neg hneg
  rw [signed64_minimum] at hval
  apply BitVec.eq_of_toNat_eq
  exact Int.ofNat.inj hval

/-- Settles O30: the number, its exact transform, and the byte list printed in R126. -/
theorem minimumSignedValue : Obligations.MinimumSignedValue :=
  ⟨signed64_minimum, zigzag64_minimum, encodeSigned_minimum⟩

end Sys2Proof.Machine
end

section
/-! SUPPORT. The length as a rounded-up quotient (spec/40_packer_and_sequencer.md R84). -/

namespace Sys2Proof.Machine

/-- Adding 6 before dividing by 7 rounds up. -/
theorem ceil_div_seven (n : Nat) : ⌈(n : ℚ) / 7⌉₊ = (n + 6) / 7 := by
  apply eq_of_forall_ge_iff
  intro m
  have hcast : (n : ℚ) / 7 ≤ m ↔ n ≤ m * 7 := by
    rw [div_le_iff₀ (by norm_num)]
    exact_mod_cast Iff.rfl
  rw [Nat.ceil_le, hcast]
  omega

theorem nbytes_eq_max_ceil (t : Word) : nbytes t = max 1 ⌈(bitlen t : ℚ) / 7⌉₊ := by
  rw [ceil_div_seven, nbytes]

end Sys2Proof.Machine
end

section
/-! SUPPORT. A block with a command in hand carries it from the accept step to the end of its result: each edge
without reset keeps the transformed value the block encodes or shows (spec/10_state.md R31, R32). -/

namespace Sys2Proof.Machine

/-- The block encodes (R31) or shows (R32) the result of a command with transformed value `t`. -/
def Block.Carries (b : Block) (t : Word) : Prop := b.Encoding t ∨ b.Showing t

theorem Block.Carries.phase_ne_idle {b : Block} {t : Word} (h : b.Carries t) : b.phase ≠ .idle := by
  rcases h with ⟨hrun, -⟩ | ⟨hdone, -⟩
  · rw [hrun]; decide
  · rw [hdone]; decide

theorem Block.Carries.showing {b : Block} {t : Word} (h : b.Carries t) (hdone : b.phase = .done) : b.Showing t := by
  rcases h with ⟨hrun, -⟩ | hshow
  · rw [hdone] at hrun
    cases hrun
  · exact hshow

theorem Block.Carries.encoding {b : Block} {t : Word} (h : b.Carries t) (hrun : b.phase = .run) : b.Encoding t := by
  rcases h with henc | ⟨hdone, -⟩
  · exact henc
  · rw [hrun] at hdone
    cases hdone

/-- Every byte of a result but the last has its continuation bit set. -/
theorem varintAt_of_lt {t : Word} {i : Nat} (h : i + 1 < nbytes t) : varintAt t i = varintByte 1#1 (group t i) := by
  rw [varintAt, (cont_eq_one_iff_lt t i).2 h]

/-- While a value is encoded a byte of its result is still to be written. -/
theorem Block.Encoding.len_lt_nbytes {b : Block} {t : Word} (h : b.Encoding t) : b.len.val < nbytes t := by
  obtain ⟨-, -, hw, -, hleft⟩ := h
  rcases Nat.eq_zero_or_pos b.len.val with hzero | hpos
  · rw [hzero]
    exact one_le_nbytes t
  · have hge : ¬ t.toNat < 2 ^ (7 * b.len.val) := by
      rw [← shift_eq_zero_iff, ← hw]
      exact hleft hpos
    rw [← nbytes_le_iff t hpos] at hge
    exact Nat.lt_of_not_le hge

/-- An accept step begins the encoding of its transformed value (R92). -/
theorem State.load_encoding (t : Word) (s : State) : (s.load t).Encoding t := by
  refine ⟨rfl, Nat.zero_le 9, (BitVec.ushiftRight_zero t).symm, fun i hi => ?_, fun hpos => ?_⟩
  · simp
  · exact absurd hpos (by simp)

section
variable {s : State} {t : Word} (hfree : s.len.val < 10)

/-- The bytes after a run step: those of the result up to the new `LEN`, zeros above (R93). -/
theorem State.getElem_emit_buf_of_encoding (henc : s.Encoding t) {i : Nat} (hi : i < 10) :
    (s.emit hfree).buf[i] = if i < s.len.val + 1 then varintAt t i else 0x00#8 := by
  have hlt : s.len.val < nbytes t := henc.len_lt_nbytes
  obtain ⟨-, -, hw, hbuf, -⟩ := henc
  obtain ⟨hbyte, -, -⟩ := pack_shift t s.len.val
  rw [State.getElem_emit_buf]
  rcases Nat.lt_trichotomy i s.len.val with hbelow | heq | habove
  · rw [if_neg hbelow.ne, hbuf i hi, if_pos hbelow, if_pos (by omega), varintAt_of_lt (by omega)]
  · rw [if_pos heq, if_pos (by omega), hw, hbyte, heq]
  · rw [if_neg habove.ne', hbuf i hi, if_neg (by omega), if_neg (by omega)]

/-- What is left after a run step (R93, R97). -/
theorem State.emit_w_of_encoding (henc : s.Encoding t) : (s.emit hfree).w = t >>> (7 * (s.len.val + 1)) := by
  obtain ⟨-, -, hw, -⟩ := henc
  rw [State.emit_w, hw, ← BitVec.shiftRight_add, Nat.mul_succ]

/-- A run step goes on exactly when another byte follows (R93). -/
theorem State.emit_phase_of_encoding (henc : s.Encoding t) :
    (s.emit hfree).phase = if s.len.val + 1 < nbytes t then .run else .done := by
  obtain ⟨-, -, hw, -⟩ := henc
  obtain ⟨-, hcont, -⟩ := pack_shift t s.len.val
  rw [State.emit_phase, hw, hcont]
  exact if_congr (cont_eq_one_iff_lt t _) rfl rfl

/-- A run step with a byte to follow goes on encoding the same value (R31). -/
theorem State.emit_encoding (henc : s.Encoding t) (hmore : s.len.val + 1 < nbytes t) :
    (s.emit hfree).Encoding t := by
  have hten : nbytes t ≤ 10 := nbytes_le_ten t
  have hw : (s.emit hfree).w = t >>> (7 * (s.len.val + 1)) := State.emit_w_of_encoding hfree henc
  refine ⟨?_, ?_, ?_, fun i hi => ?_, fun _ => ?_⟩
  · rw [State.emit_phase_of_encoding hfree henc, if_pos hmore]
  · rw [State.emit_len]
    omega
  · rw [hw, State.emit_len]
  · rw [State.getElem_emit_buf_of_encoding hfree henc, State.emit_len]
    split
    next hwritten => exact varintAt_of_lt (by omega)
    next => rfl
  · rw [hw, Ne, shift_eq_zero_iff, ← nbytes_le_iff t (Nat.succ_pos _)]
    omega

/-- The run step of the last byte completes the result (R32). -/
theorem State.emit_showing (henc : s.Encoding t) (hlast : ¬ s.len.val + 1 < nbytes t) :
    (s.emit hfree).Showing t := by
  have hlt : s.len.val < nbytes t := henc.len_lt_nbytes
  have hlen : s.len.val + 1 = nbytes t := by omega
  refine ⟨?_, ?_, ?_, fun i hi => ?_⟩
  · rw [State.emit_phase_of_encoding hfree henc, if_neg hlast]
  · rw [State.emit_len, hlen]
  · rw [State.emit_w_of_encoding hfree henc, shift_eq_zero_iff, hlen]
    exact (nbytes_le_iff t (one_le_nbytes t)).1 le_rfl
  · rw [State.getElem_emit_buf_of_encoding hfree henc, hlen]

theorem State.emit_carries (henc : s.Encoding t) : (s.emit hfree).Carries t := by
  by_cases hmore : s.len.val + 1 < nbytes t
  · exact .inl (State.emit_encoding hfree henc hmore)
  · exact .inr (State.emit_showing hfree henc hmore)

end

/-- A step either leaves the block idle, or accepts a command and carries it, or keeps what the block carries. -/
theorem step_carries {s u : State} (h : step s = .next u) (hbusy : u.phase ≠ .idle) :
    (s.accepts = true ∧ u.Carries (transformed s.input.cmdOp s.input.cmdValue)) ∨
    (s.phase ≠ .idle ∧ ∀ t, s.Carries t → u.Carries t) := by
  rcases step_cases h with ⟨-, rfl⟩ | ⟨-, hidle, -, rfl⟩ | ⟨hrst, hidle, hvalid, rfl⟩ | ⟨-, hrun, hfree, rfl⟩ |
    ⟨-, hdone, -, rfl⟩ | ⟨-, -, -, rfl⟩
  · exact absurd rfl hbusy
  · exact absurd hidle hbusy
  · exact .inl ⟨(accepts_iff s).2 ⟨hrst, hidle, hvalid⟩, .inl (State.load_encoding _ _)⟩
  · refine .inr ⟨by rw [hrun]; decide, fun t hcarries => ?_⟩
    exact State.emit_carries (s := s.tick) hfree (hcarries.encoding hrun)
  · exact .inr ⟨by rw [hdone]; decide, fun t hcarries => hcarries⟩
  · exact absurd rfl hbusy

end Sys2Proof.Machine
end

section
/-! SUPPORT. The most recent accept step of an execution (spec/43_properties_and_inverse.md R141). -/

namespace Sys2Proof.Machine

/-- Of the first `k` edges from `s₀`, edge `j` is the last that accepts a command, and `s` is the state at it. -/
def LastAccept (s₀ : State) (k j : Nat) (s : State) : Prop :=
  j < k ∧ Reaches j s₀ s ∧ s.accepts = true ∧
    ∀ m s', j < m → m < k → Reaches m s₀ s' → s'.accepts = false

theorem lastAccept_of_accepts {s₀ s : State} {k : Nat} (hreach : Reaches k s₀ s) (hacc : s.accepts = true) :
    LastAccept s₀ (k + 1) k s :=
  ⟨Nat.lt_succ_self k, hreach, hacc, fun _ _ _ _ _ => by omega⟩

/-- A block that is not idle accepts nothing (R29, R179). -/
theorem accepts_eq_false_of_phase_ne_idle {s : State} (h : s.phase ≠ .idle) : s.accepts = false := by
  refine Bool.eq_false_of_not_eq_true fun hacc => ?_
  obtain ⟨-, hidle, -⟩ := (accepts_iff s).1 hacc
  exact h hidle

/-- An edge that accepts nothing leaves the last accept step what it was. -/
theorem LastAccept.succ {s₀ s v : State} {k j : Nat} (h : LastAccept s₀ k j s) (hreach : Reaches k s₀ v)
    (hbusy : v.phase ≠ .idle) : LastAccept s₀ (k + 1) j s := by
  obtain ⟨hlt, hat, hacc, hnone⟩ := h
  refine ⟨Nat.lt_succ_of_lt hlt, hat, hacc, fun m s' hjm hmk hs' => ?_⟩
  rcases Nat.lt_succ_iff_lt_or_eq.1 hmk with hbefore | rfl
  · exact hnone m s' hjm hbefore hs'
  · rw [hs'.unique hreach]
    exact accepts_eq_false_of_phase_ne_idle hbusy

/-- In every execution from an idle state, a block that is not idle carries the command last accepted. -/
theorem Reaches.exists_lastAccept_carries {s₀ u : State} {k : Nat} (hidle : s₀.phase = .idle) (h : Reaches k s₀ u)
    (hbusy : u.phase ≠ .idle) :
    ∃ j s, LastAccept s₀ k j s ∧ u.Carries (transformed s.input.cmdOp s.input.cmdValue) := by
  induction k generalizing u with
  | zero => exact absurd (reaches_zero.1 h ▸ hidle) hbusy
  | succ k ih =>
    obtain ⟨v, hreach, hstep⟩ := reaches_succ_last.1 h
    rcases step_carries hstep hbusy with ⟨hacc, hcarries⟩ | ⟨hvbusy, hkeeps⟩
    · exact ⟨k, v, lastAccept_of_accepts hreach hacc, hcarries⟩
    · obtain ⟨j, s, hlast, hcarries⟩ := ih hreach hvbusy
      exact ⟨j, s, hlast.succ hreach hvbusy, hkeeps _ hcarries⟩

end Sys2Proof.Machine
end

section
/-! PROOFS. The length of a result (spec/43_properties_and_inverse.md R135). -/

namespace Sys2Proof.Machine

/-- Settles O57: the byte list has `nbytes` bytes; and in an execution from reset a block in `DONE` shows the command
last accepted, its `LEN` being the length of that result. -/
theorem lengthBound : Obligations.LengthBound := by
  refine ⟨fun v => ⟨length_varint v, length_varint (zigzag64 v)⟩,
    fun t => ⟨nbytes_eq_max_ceil t, one_le_nbytes t, nbytes_le_ten t⟩, fun ins k u hreach hvalid => ?_⟩
  have hdone : u.phase = .done := (rspValid_iff _).1 hvalid
  have hbusy : u.phase ≠ .idle := by rw [hdone]; decide
  obtain ⟨j, s, ⟨hlt, hat, hacc, hnone⟩, hcarries⟩ := hreach.exists_lastAccept_carries rfl hbusy
  exact ⟨j, s, hlt, hat, hacc, hnone, (hcarries.showing hdone).rspLen_toNat⟩

end Sys2Proof.Machine
end

section
/-! SUPPORT. The inverse functions undo the varint and the transform (spec/43_properties_and_inverse.md R130 to R132). -/

namespace Sys2Proof.Machine

/-- Appended bytes are laid down above the seven bits of each byte before them (R130). -/
theorem unvarint_append (l m : List Byte) : unvarint (l ++ m) = unvarint l + 2 ^ (7 * l.length) * unvarint m := by
  induction l with
  | nil => simp [unvarint]
  | cons b bs ih =>
    simp only [List.cons_append, unvarint, ih, List.length_cons, Nat.mul_succ, Nat.pow_add]
    ring

/-- The first `n` bytes carry the low `7 * n` bits of the value. -/
theorem unvarint_map_range_varintAt (t : Word) (n : Nat) :
    unvarint ((List.range n).map (varintAt t)) = t.toNat % 2 ^ (7 * n) := by
  induction n with
  | zero => simp [unvarint, Nat.mod_one]
  | succ n ih =>
    have hlast : unvarint [varintAt t n] = t.toNat / 2 ^ (7 * n) % 2 ^ 7 := by
      simp [unvarint, varintAt, toNat_group]
    rw [List.range_succ, List.map_append, List.map_singleton, unvarint_append, ih, hlast, List.length_map,
      List.length_range, Nat.mul_succ, Nat.pow_add, Nat.mod_mul]

/-- The bytes of a result carry the whole value (R133). -/
theorem unvarint_varint (t : Word) : unvarint (varint t) = t.toNat := by
  have hfits : t.toNat < 2 ^ (7 * nbytes t) := (nbytes_le_iff t (one_le_nbytes t)).1 le_rfl
  rw [varint, unvarint_map_range_varintAt, Nat.mod_eq_of_lt hfits]

theorem unzigzag64_of_even {t : Word} (h : t.toNat % 2 = 0) : unzigzag64 t = (t.toNat : Int) / 2 := if_pos h

theorem unzigzag64_of_odd {t : Word} (h : t.toNat % 2 = 1) : unzigzag64 t = -(((t.toNat : Int) + 1) / 2) :=
  if_neg (by omega)

/-- The parity of the transform tells the sign, and half of it the magnitude (R132). -/
theorem unzigzag64_zigzag64 (v : Word) : unzigzag64 (zigzag64 v) = signed64 v := by
  rcases lt_or_ge (signed64 v) 0 with hneg | hnonneg
  · have hval := toNat_zigzag64_of_neg hneg
    rw [unzigzag64_of_odd (by omega)]
    omega
  · have hval := toNat_zigzag64_of_nonneg hnonneg
    rw [unzigzag64_of_even (by omega)]
    omega

end Sys2Proof.Machine
end

section
/-! PROOFS. The round trips (spec/43_properties_and_inverse.md R133, R134). -/

namespace Sys2Proof.Machine

/-- Settles O37: the unsigned operand is its own transformed value, and the bytes of a result carry all of it. -/
theorem roundTripUnsigned : Obligations.RoundTripUnsigned := fun v => unvarint_varint v

/-- Settles O38: decoding the bytes gives the transform back, and the transform determines the number meant. -/
theorem roundTripSigned : Obligations.RoundTripSigned := by
  intro v
  have hbytes : unvarint (encodeSigned v) = (zigzag64 v).toNat := unvarint_varint (zigzag64 v)
  rw [hbytes, BitVec.ofNat_toNat, BitVec.setWidth_eq]
  exact unzigzag64_zigzag64 v

end Sys2Proof.Machine
end

section
/-! SUPPORT. Every command word is the word of one command (spec/30_encoding.md R60 to R64). -/

namespace Sys2Proof

/-- Operation select 0 is `ENCU` (R61). -/
@[simp] theorem decodeWord_cmdWord_zero (v : Word) : decodeWord (cmdWord 0#1 v) = .encu v := by
  rw [decodeWord, opField_cmdWord, valueField_cmdWord, if_neg (by decide)]

/-- Operation select 1 is `ENCS` (R61). -/
@[simp] theorem decodeWord_cmdWord_one (v : Word) : decodeWord (cmdWord 1#1 v) = .encs v := by
  rw [decodeWord, opField_cmdWord, valueField_cmdWord, if_pos rfl]

@[simp] theorem decodeWord_encode (i : Instr) : decodeWord (encode i) = i := by
  cases i with
  | encu v => exact decodeWord_cmdWord_zero v
  | encs v => exact decodeWord_cmdWord_one v

/-- A command word is that of `ENCU` or that of `ENCS`, its field `value` being the operand. -/
theorem cmdWord_cases (w : CmdWord) : w = cmdWord 0#1 (valueField w) ∨ w = cmdWord 1#1 (valueField w) := by
  have hfields : cmdWord (opField w) (valueField w) = w := cmdWord_fields w
  rcases bit_cases (opField w) with hop | hop
  · exact .inr (by rw [← hop, hfields])
  · exact .inl (by rw [← hop, hfields])

theorem encode_decodeWord (w : CmdWord) : encode (decodeWord w) = w := by
  rcases cmdWord_cases w with hw | hw
  · rw [hw, decodeWord_cmdWord_zero, encode]
  · rw [hw, decodeWord_cmdWord_one, encode]

theorem decode_of_lt {n : Nat} (h : n < 2 ^ 65) : decode n = .ok (decodeWord (BitVec.ofNat 65 n)) := if_pos h

theorem decode_of_ge {n : Nat} (h : 2 ^ 65 ≤ n) : decode n = .error .widerThanCommand := if_neg (Nat.not_lt.2 h)

theorem decode_toNat (w : CmdWord) : decode w.toNat = .ok (decodeWord w) := by
  rw [decode_of_lt w.isLt, BitVec.ofNat_toNat, BitVec.setWidth_eq]

theorem wellFormed_eq_true (i : Instr) : i.wellFormed = true := by
  cases i with
  | encu v => rfl
  | encs v => rfl

/-- The mask keeps field `op` and clears field `value` (R64). -/
theorem cmdWord_and_opMask (op : BitVec 1) (v : Word) : cmdWord op v &&& opMask = cmdWord op 0#64 := by
  have hmask : opMask = cmdWord (BitVec.allOnes 1) 0#64 := by decide
  apply BitVec.eq_of_getLsbD_eq
  intro k hk
  rw [hmask, BitVec.getLsbD_and, getLsbD_cmdWord, getLsbD_cmdWord, getLsbD_cmdWord]
  split
  next => rw [BitVec.getLsbD_zero, Bool.and_false]
  next hhigh =>
    have hbit : k - 64 = 0 := by omega
    rw [hbit]
    exact Bool.and_true _

/-- A word selects the row whose match value has its operation select (R64). -/
theorem selectsRow_cmdWord (op row : BitVec 1) (v : Word) :
    selectsRow (cmdWord row 0#64) (cmdWord op v) = decide (op = row) := by
  have hiff : cmdWord op 0#64 = cmdWord row 0#64 ↔ op = row :=
    ⟨fun h => by rw [← opField_cmdWord op 0#64, h, opField_cmdWord], fun h => by rw [h]⟩
  rw [selectsRow, cmdWord_and_opMask, beq_eq_decide, decide_eq_decide]
  exact hiff

end Sys2Proof
end

section
/-! PROOFS. Commands and their words (spec/30_encoding.md). -/

namespace Sys2Proof

/-- Settles O2: a word is its two fields, and the decoder's only refusal is its comparison with `2 ^ 65`. -/
theorem decodeEncodeAgree : Obligations.DecodeEncodeAgree := by
  refine ⟨fun i => ⟨wellFormed_eq_true i, decodeWord_encode i, ?_⟩, encode_decodeWord,
    fun n => ⟨fun h => ?_, decode_of_ge⟩⟩
  · rw [decode_toNat, decodeWord_encode]
  · refine Nat.not_lt.1 fun hlt => ?_
    rw [decode_of_lt hlt] at h
    cases h

/-- Settles O3: the masked word is the match value with the word's operation select. -/
theorem everyWordSelectsOneRow : Obligations.EveryWordSelectsOneRow := by
  have hencu : encuMatch = cmdWord 0#1 0#64 := by decide
  have hencs : encsMatch = cmdWord 1#1 0#64 := by decide
  intro w
  change _ ∧ _ ∧ _ = Instr.encu (valueField w) ∨ _ ∧ _ ∧ _ = Instr.encs (valueField w)
  rw [hencu, hencs]
  rcases cmdWord_cases w with hw | hw
  · refine .inl ?_
    rw [hw, selectsRow_cmdWord, selectsRow_cmdWord, valueField_cmdWord, decodeWord_cmdWord_zero]
    exact ⟨rfl, rfl, rfl⟩
  · refine .inr ?_
    rw [hw, selectsRow_cmdWord, selectsRow_cmdWord, valueField_cmdWord, decodeWord_cmdWord_one]
    exact ⟨rfl, rfl, rfl⟩

/-- Settles O1: each number written out is the word of its command. -/
theorem writtenWordsDecode : Obligations.WrittenWordsDecode :=
  ⟨decodeWord_encode (.encu 300#64), decodeWord_encode (.encu 0xFFFFFFFFFFFFFFFF#64),
    decodeWord_encode (.encs 0x8000000000000000#64), decodeWord_encode (.encs 0xFFFFFFFFFFFFFFFF#64),
    by decide⟩

end Sys2Proof
end

section
/-! PROOFS. The textual form of a command (spec/30_encoding.md R72). -/

namespace Sys2Proof

open Machine

theorem CommandText.toInstr_eq_none {c : CommandText} (h : c.wellFormed = false) : c.toInstr = none := by
  rw [CommandText.toInstr.eq_def, h]
  rfl

theorem CommandText.toInstr_encu {n : Nat} (h : n < 2 ^ 64) :
    (CommandText.encu n).toInstr = some (.encu (BitVec.ofNat 64 n)) := if_pos (decide_eq_true h)

theorem CommandText.toInstr_encsHex {n : Nat} (h : n < 2 ^ 64) :
    (CommandText.encsHex n).toInstr = some (.encs (BitVec.ofNat 64 n)) := if_pos (decide_eq_true h)

theorem CommandText.toInstr_encsDecimal {s : Int} (hlow : -2 ^ 63 ≤ s) (hhigh : s < 2 ^ 63) :
    (CommandText.encsDecimal s).toInstr = some (.encs (BitVec.ofInt 64 s)) :=
  if_pos (Bool.and_eq_true_iff.2 ⟨decide_eq_true hlow, decide_eq_true hhigh⟩)

/-- Settles O4: a literal in range is the number of its pattern, and the range check refuses the others. -/
theorem literalsSpellCommands : Obligations.LiteralsSpellCommands := by
  refine ⟨fun v => ⟨?_, ?_, ?_⟩, fun n hn => ?_, fun s hs => CommandText.toInstr_eq_none ?_⟩
  · rw [CommandText.toInstr_encu v.isLt, BitVec.ofNat_toNat, BitVec.setWidth_eq]
  · rw [CommandText.toInstr_encsHex v.isLt, BitVec.ofNat_toNat, BitVec.setWidth_eq]
  · obtain ⟨hlow, hhigh⟩ := signed64_range v
    rw [CommandText.toInstr_encsDecimal hlow hhigh, signed64_eq_toInt, BitVec.ofInt_toInt]
  · have hout : decide (n < 2 ^ 64) = false := decide_eq_false (Nat.not_lt.2 hn)
    exact ⟨CommandText.toInstr_eq_none hout, CommandText.toInstr_eq_none hout⟩
  · rw [CommandText.wellFormed, ← Bool.decide_and, decide_eq_false_iff_not]
    omega

end Sys2Proof
end

section
/-! PROOFS. A command on its port (spec/40_packer_and_sequencer.md R92 to R95, spec/41_encu.md R110,
spec/42_encs.md R125). -/

namespace Sys2Proof.Machine

/-- `ENCU` is the accept step of its operand as it is (R110). -/
theorem exec_encu (v : Word) (s : State) : exec (.encu v) s = accept v s := rfl

/-- `ENCS` is the accept step of its transformed operand (R125). -/
theorem exec_encs (v : Word) (s : State) : exec (.encs v) s = accept (zigzag64 v) s := rfl

theorem State.withFetchWord_of_some {s : State} {nbits w : Nat} {i : Instr} (h : decodeTableWord nbits w = some i) :
    s.withFetchWord nbits w = placeCommand s (encode i) := by
  rw [State.withFetchWord, h]

/-- Settles O5: an accept edge runs the command on the port, and a placed command is on the port of an idle block. -/
theorem stepRunsTheDecodedCommand : Obligations.StepRunsTheDecodedCommand := by
  refine ⟨fun s i hidle hrst hvalid hdecode => ?_, fun s nbits w i hword => ?_⟩
  · rw [step_command hrst hidle hvalid, hdecode]
  · rw [State.withFetchWord_of_some hword, step_placeCommand, decodeWord_encode]

/-- Settles O6: the accept state is the load of the operand. -/
theorem encuIsAccepted : Obligations.EncuIsAccepted := fun v s hidle =>
  (exec_encu v s).trans (accept_idle hidle)

/-- Settles O7: the accept state is the load of the transformed operand. -/
theorem encsIsAccepted : Obligations.EncsIsAccepted := fun v s hidle =>
  (exec_encs v s).trans (accept_idle hidle)

/-- Settles O8: both operations are the accept step of their transformed value, which a busy block ignores. -/
theorem busyCommandChangesNothing : Obligations.BusyCommandChangesNothing := by
  intro i s hbusy
  cases i with
  | encu v => exact (exec_encu v s).trans (accept_busy hbusy)
  | encs v => exact (exec_encs v s).trans (accept_busy hbusy)

end Sys2Proof.Machine
end

section
/-! SUPPORT. The state after reset edges (spec/70_reset_and_hazards.md R170). -/

namespace Sys2Proof.Machine

/-- While `rst` stays 1 each edge leads to the reset state (R170). -/
theorem exists_reaches_reset {s : State} {n : Nat} (hrst : ∀ k ≤ n, (s.inputAt k).rst = true) :
    ∃ t, Reaches (n + 1) s t ∧ t.toBlock = Block.reset := by
  induction n with
  | zero =>
    obtain ⟨t, hstep, hblock⟩ := step_reset_toBlock (hrst 0 le_rfl)
    exact ⟨t, reaches_succ_last.2 ⟨s, reaches_zero.2 rfl, hstep⟩, hblock⟩
  | succ n ih =>
    obtain ⟨v, hreach, -⟩ := ih fun k hk => hrst k (Nat.le_succ_of_le hk)
    have hinput : v.input = s.inputAt (n + 1) := hreach.inputAt 0
    obtain ⟨t, hstep, hblock⟩ := step_reset_toBlock (hinput ▸ hrst (n + 1) le_rfl)
    exact ⟨t, reaches_succ_last.2 ⟨v, hreach, hstep⟩, hblock⟩

end Sys2Proof.Machine
end

section
/-! PROOFS. The step: reset, the transition relation, the inputs it looks at, and its one refusal
(spec/40_packer_and_sequencer.md R90, spec/70_reset_and_hazards.md R170 to R178). -/

namespace Sys2Proof.Machine

/-- Settles O10: the reset state is idle, so it accepts at the first edge without reset. -/
theorem resetHoldsThenAccepts : Obligations.ResetHoldsThenAccepts := by
  intro s n hrst
  obtain ⟨t, hreach, hblock⟩ := exists_reaches_reset hrst
  have hinput : t.input = s.inputAt (n + 1) := hreach.inputAt 0
  have hidle : t.phase = .idle := by rw [hblock, Block.reset_phase]
  refine ⟨t, hreach, hblock, hinput, ?_⟩
  rw [← hinput]
  exact fun hrst' hvalid' => ⟨_, step_accept hrst' hidle hvalid', State.load_phase _ _, State.load_w _ _⟩

/-- Settles O11: the phase after each of the six things a step can do. -/
theorem phaseTransitions : Obligations.PhaseTransitions := by
  intro s t hstep
  rcases step_cases hstep with ⟨hrst, rfl⟩ | ⟨hrst, hidle, hvalid, rfl⟩ | ⟨hrst, hidle, hvalid, rfl⟩ |
    ⟨hrst, hrun, hfree, rfl⟩ | ⟨hrst, hdone, hready, rfl⟩ | ⟨hrst, hdone, hready, rfl⟩
  · simp [hrst]
  · simp [hrst, hidle, hvalid]
  · simp [hrst, hidle, hvalid]
  · rw [hrst, hrun]
    exact ⟨nofun, fun _ => State.emit_phase_eq _ hfree⟩
  · simp [hrst, hdone, hready]
  · simp [hrst, hdone, hready]

/-- Two blocks that are equal emit equal bytes. -/
theorem State.emit_toBlock_congr {s s' : State} (hblock : s.toBlock = s'.toBlock) (hfree : s.len.val < 10)
    (hfree' : s'.len.val < 10) : (s'.emit hfree').toBlock = (s.emit hfree).toBlock := by
  obtain ⟨b, host, edge⟩ := s
  obtain ⟨b', host', edge'⟩ := s'
  cases hblock
  rfl

/-- Settles O17: each of the six things a step can do looks at the inputs named for its phase and at no other. -/
theorem ignoredInputsHaveNoEffect : Obligations.IgnoredInputsHaveNoEffect := by
  intro s s' t hblock hrst hvalid hcommand hready hstep
  have hphase : s'.phase = s.phase := by rw [hblock]
  rcases step_cases hstep with ⟨hr, rfl⟩ | ⟨hr, hidle, hv, rfl⟩ | ⟨hr, hidle, hv, rfl⟩ | ⟨hr, hrun, hfree, rfl⟩ |
    ⟨hr, hdone, hq, rfl⟩ | ⟨hr, hdone, hq, rfl⟩
  · exact ⟨_, step_reset (hrst ▸ hr), rfl⟩
  · exact ⟨_, step_idle (hrst ▸ hr) (hphase.trans hidle) (hvalid hr hidle ▸ hv), hblock.symm⟩
  · obtain ⟨hop, hvalue⟩ := hcommand ((accepts_iff s).2 ⟨hr, hidle, hv⟩)
    refine ⟨_, step_accept (hrst ▸ hr) (hphase.trans hidle) (hvalid hr hidle ▸ hv), ?_⟩
    rw [hop, hvalue]
    rfl
  · have hfree' : s'.tick.len.val < 10 := by rwa [State.tick_toBlock, ← hblock]
    exact ⟨_, step_run (hrst ▸ hr) (hphase.trans hrun) hfree', State.emit_toBlock_congr hblock _ _⟩
  · exact ⟨_, step_hold (hrst ▸ hr) (hphase.trans hdone) (hready hr hdone ▸ hq), hblock.symm⟩
  · refine ⟨_, step_retire (hrst ▸ hr) (hphase.trans hdone) (hready hr hdone ▸ hq), ?_⟩
    change ({ s'.toBlock with phase := .idle } : Block) = { s.toBlock with phase := .idle }
    rw [hblock]

/-- Settles O15: no place in the buffer is free, and the run step checks for one. -/
theorem runStepWithFullBufferStops : Obligations.RunStepWithFullBufferStops := by
  intro s hrun hfull hrst
  have hnotFree : ¬ s.tick.len.val < 10 := by
    rw [State.tick_toBlock, hfull]
    decide
  have hstep : step s = runStep s.tick := by rw [step, clockEdge, hrst, hrun]; rfl
  rw [hstep, runStep, dif_neg hnotFree]

end Sys2Proof.Machine
end

section
/-! SUPPORT. Groups as digits, and the length counted by continuation bits
(spec/40_packer_and_sequencer.md R81, R84). -/

namespace Sys2Proof.Machine

/-- The lowest `n` groups hold the value up to bit `7n`: one more group is one more digit. -/
theorem sum_groups_eq_mod (t : Word) (n : Nat) :
    ((List.range n).map fun i => (group t i).toNat * 2 ^ (7 * i)).sum = t.toNat % 2 ^ (7 * n) := by
  induction n with
  | zero => exact (Nat.mod_one _).symm
  | succ n ih =>
    have hsplit : t.toNat % 2 ^ (7 * (n + 1)) =
        t.toNat % 2 ^ (7 * n) + 2 ^ (7 * n) * (t.toNat / 2 ^ (7 * n) % 2 ^ 7) := by
      rw [Nat.mul_succ, Nat.pow_add, Nat.mod_mul]
    rw [List.sum_range_succ, ih, hsplit, toNat_group, Nat.mul_comm (2 ^ (7 * n))]
    rfl

/-- Of the first `k` positions, those followed by another byte are the first `nbytes t - 1`. -/
theorem length_filter_cont (t : Word) (k : Nat) :
    ((List.range k).filter fun i => cont t i == 1#1).length = min k (nbytes t - 1) := by
  induction k with
  | zero => simp
  | succ k ih =>
    rw [List.range_succ, List.filter_append, List.length_append, ih]
    by_cases hcont : cont t k = 1#1
    · have hmore : k + 1 < nbytes t := (cont_eq_one_iff_lt t k).1 hcont
      simp only [List.filter_singleton, hcont, beq_self_eq_true, cond_true, List.length_singleton]
      omega
    · have hlast : ¬ k + 1 < nbytes t := mt (cont_eq_one_iff_lt t k).2 hcont
      simp only [List.filter_singleton, beq_false_of_ne hcont, cond_false, List.length_nil]
      omega

theorem shift_seven_mul_nbytes (t : Word) : t >>> (7 * nbytes t) = 0#64 :=
  (shift_eq_zero_iff t _).2 ((nbytes_le_iff t (one_le_nbytes t)).1 le_rfl)

/-- A result of two bytes or more needs its last group. -/
theorem two_pow_le_of_two_le_nbytes {t : Word} (h : 2 ≤ nbytes t) : 2 ^ (7 * (nbytes t - 1)) ≤ t.toNat := by
  rw [← Nat.not_lt, ← nbytes_le_iff t (by omega)]
  omega

/-- `2 ^ (k - 1) ≤ t < 2 ^ k` says that `bitlen t` is at most `k` and not less (R83). -/
theorem bitlen_eq_iff (t : Word) {k : Nat} (hk : 1 ≤ k) : bitlen t = k ↔ 2 ^ (k - 1) ≤ t.toNat ∧ t.toNat < 2 ^ k := by
  rw [← Nat.not_lt, ← bitlen_le_iff, ← bitlen_le_iff]
  omega

theorem bitlen_eq_zero_iff (t : Word) : bitlen t = 0 ↔ t = 0#64 := by
  rw [← Nat.le_zero, bitlen_le_iff, Nat.pow_zero, Nat.lt_one_iff, ← BitVec.toNat_inj]
  rfl

/-- Started on `t >> 7i`, byte `i` being due, the loop appends the bytes of `t` from `i` on (R87). -/
theorem packLoop_shift (t : Word) (fuel i : Nat) (hdue : i < nbytes t) (hfuel : nbytes t ≤ i + fuel) :
    packLoop fuel (t >>> (7 * i)) = (List.range' i (nbytes t - i)).map (varintAt t) := by
  induction fuel generalizing i with
  | zero => omega
  | succ fuel ih =>
    have hshift : t >>> (7 * i) >>> 7 = t >>> (7 * (i + 1)) := by rw [← BitVec.shiftRight_add, Nat.mul_succ]
    have hzero : t >>> (7 * i) >>> 7 = 0#64 ↔ nbytes t ≤ i + 1 := by
      rw [hshift, shift_eq_zero_iff, ← nbytes_le_iff t (Nat.succ_pos i)]
    rw [packLoop]
    split
    next hstop =>
      have hlen : nbytes t - i = 1 := by rw [hzero] at hstop; omega
      rw [hlen, List.range'_one, List.map_singleton, varintAt,
        (cont_eq_zero_iff_nbytes_le t i).2 (hzero.1 hstop), group]
    next hmore =>
      have hlt : i + 1 < nbytes t := by rw [hzero] at hmore; omega
      have hlen : nbytes t - i = nbytes t - (i + 1) + 1 := by omega
      rw [hlen, List.range'_succ, List.map_cons, varintAt_of_lt hlt, group, hshift, ih (i + 1) hlt (by omega)]

end Sys2Proof.Machine
end

section
/-! PROOFS. Partition, bit length, length and loop of the packer (spec/40_packer_and_sequencer.md R81 to R88). -/

namespace Sys2Proof.Machine

/-- Settles O21: ten groups reach past bit 63, so nothing is cut off. -/
theorem groupsPartition : Obligations.GroupsPartition := by
  intro t
  have hfits : t.toNat < 2 ^ (7 * 10) := Nat.lt_trans t.isLt (by decide)
  rw [sum_groups_eq_mod, Nat.mod_eq_of_lt hfits]

/-- Settles O23: the bit length is the least `k` with `t < 2 ^ k`. -/
theorem bitLength : Obligations.BitLength := by
  intro t
  refine ⟨(bitlen_le_iff t 64).2 t.isLt, (bitlen_eq_zero_iff t).2, fun hne k => ⟨?_, ?_⟩⟩
  · rintro rfl
    have hpos : 1 ≤ bitlen t := Nat.one_le_iff_ne_zero.2 (mt (bitlen_eq_zero_iff t).1 hne)
    exact ⟨hpos, (bitlen_eq_iff t hpos).1 rfl⟩
  · rintro ⟨hpos, hbounds⟩
    exact ((bitlen_eq_iff t hpos).2 hbounds).symm

/-- Settles O24: every form compares `t` with the powers of `2 ^ 7`. -/
theorem lengthForms : Obligations.LengthForms := by
  intro t
  have hpos : 1 ≤ nbytes t := one_le_nbytes t
  have hten : nbytes t ≤ 10 := nbytes_le_ten t
  refine ⟨⟨nbytes_eq_max_ceil t, hpos, hten⟩, ⟨shift_seven_mul_nbytes t, fun n hn hzero => ?_⟩, ?_, fun hlt => ?_,
    fun hge => ?_⟩
  · exact (nbytes_le_iff t hn).2 ((shift_eq_zero_iff t _).1 hzero)
  · rw [length_filter_cont]
    omega
  · exact le_antisymm ((nbytes_le_iff t le_rfl).2 hlt) hpos
  · have htwo : 2 ≤ nbytes t := (cont_eq_one_iff_lt t 0).1 ((cont_eq_one_iff t 0).2 hge)
    exact ⟨htwo, two_pow_le_of_two_le_nbytes htwo, (nbytes_le_iff t hpos).1 le_rfl⟩

/-- Settles O26: a result has at most ten bytes, so ten iterations reach the last. -/
theorem sourceLoopIsVarint : Obligations.SourceLoopIsVarint := by
  intro t fuel hfuel
  have hloop := packLoop_shift t fuel 0 (one_le_nbytes t) (by have := nbytes_le_ten t; omega)
  rwa [Nat.mul_zero, BitVec.ushiftRight_zero, Nat.sub_zero, ← List.range_eq_range'] at hloop

/-- Settles O27: a slice of the upper 57 bits, widened with zeros, is the shift by seven. -/
theorem packIteration : Obligations.PackIteration := by
  intro w
  have hupper : w >>> 7 = (w.extractLsb' 7 57).setWidth 64 := by
    apply BitVec.eq_of_getLsbD_eq
    intro k hk
    rw [BitVec.getLsbD_ushiftRight, BitVec.getLsbD_setWidth, BitVec.getLsbD_extractLsb', decide_eq_true hk,
      Bool.true_and]
    by_cases hin : k < 57
    · rw [decide_eq_true hin, Bool.true_and]
    · rw [BitVec.getLsbD_of_ge _ _ (by omega), decide_eq_false hin, Bool.false_and]
  have hlower : w.setWidth 7 = w.extractLsb' 0 7 := BitVec.setWidth_eq_extractLsb' (by decide)
  exact ⟨hlower, hupper, rfl, pack_c_eq_one_iff w, rfl⟩

end Sys2Proof.Machine
end

section
/-! SUPPORT. The transform and its inverse as bijections, and their bit-level forms (spec/42_encs.md R121, R124,
spec/43_properties_and_inverse.md R132). -/

namespace Sys2Proof.Machine

theorem toNat_zigzag64_natAbs_of_nonneg {v : Word} (h : 0 ≤ signed64 v) :
    (zigzag64 v).toNat = 2 * (signed64 v).natAbs := by
  have hval := toNat_zigzag64_of_nonneg h
  omega

theorem toNat_zigzag64_natAbs_of_neg {v : Word} (h : signed64 v < 0) :
    (zigzag64 v).toNat = 2 * (signed64 v).natAbs - 1 := by
  have hval := toNat_zigzag64_of_neg h
  omega

theorem zigzag64_injective : Function.Injective zigzag64 := by
  intro v w h
  apply signed64_injective
  rw [← unzigzag64_zigzag64, h, unzigzag64_zigzag64]

/-- An injective function of a finite set to itself reaches all of it. -/
theorem zigzag64_surjective : Function.Surjective zigzag64 :=
  Finite.surjective_of_injective zigzag64_injective

/-- The pattern of the inverse is the pattern the transform came from. -/
theorem ofInt_unzigzag64_zigzag64 (v : Word) : BitVec.ofInt 64 (unzigzag64 (zigzag64 v)) = v := by
  rw [unzigzag64_zigzag64, signed64_eq_toInt, BitVec.ofInt_toInt]

theorem zigzag64_ofInt_unzigzag64 (t : Word) : zigzag64 (BitVec.ofInt 64 (unzigzag64 t)) = t := by
  obtain ⟨v, rfl⟩ := zigzag64_surjective t
  rw [ofInt_unzigzag64_zigzag64]

theorem signed64_neg_iff_msb (v : Word) : signed64 v < 0 ↔ v.msb = true := by
  rw [signed64_eq_toInt, BitVec.msb_eq_toInt, decide_eq_true_iff]

theorem signed64_of_msb {v : Word} (h : v.msb = true) : signed64 v = (v.toNat : Int) - 2 ^ 64 := if_pos h

theorem signed64_of_not_msb {v : Word} (h : ¬ v.msb = true) : signed64 v = v.toNat := if_neg h

/-- For a negative number the transform is the complement of twice the pattern (R121). -/
theorem zigzag64_of_msb {v : Word} (h : v.msb = true) : zigzag64 v = ~~~(v <<< 1) := by
  have hval := toNat_zigzag64_of_neg ((signed64_neg_iff_msb v).2 h)
  rw [signed64_of_msb h] at hval
  have hlt : v.toNat < 2 ^ 64 := v.isLt
  apply BitVec.eq_of_toNat_eq
  rw [BitVec.toNat_not, BitVec.toNat_shiftLeft, Nat.shiftLeft_eq]
  omega

/-- For the other numbers it is twice the pattern (R121). -/
theorem zigzag64_of_not_msb {v : Word} (h : ¬ v.msb = true) : zigzag64 v = v <<< 1 := by
  have hval := toNat_zigzag64_of_nonneg (Int.not_lt.1 (mt (signed64_neg_iff_msb v).1 h))
  rw [signed64_of_not_msb h] at hval
  have hlt : (zigzag64 v).toNat < 2 ^ 64 := (zigzag64 v).isLt
  apply BitVec.eq_of_toNat_eq
  rw [BitVec.toNat_shiftLeft, Nat.shiftLeft_eq]
  omega

theorem zigzag64_eq_zigzagBits (v : Word) : zigzag64 v = zigzagBits v := by
  have hones : (0xFFFFFFFFFFFFFFFF#64 : Word) = BitVec.allOnes 64 := by decide
  rw [zigzagBits, hones]
  split
  next h => rw [zigzag64_of_msb h, BitVec.xor_allOnes]
  next h => rw [zigzag64_of_not_msb h, BitVec.xor_zero]

theorem getLsbD_zigzag64_zero (v : Word) : (zigzag64 v).getLsbD 0 = v.msb := by
  by_cases h : v.msb = true
  · rw [zigzag64_of_msb h, h]
    simp
  · rw [zigzag64_of_not_msb h, Bool.eq_false_of_not_eq_true h]
    simp

theorem getLsbD_zigzag64_succ (v : Word) {i : Nat} (hi : i + 1 < 64) :
    (zigzag64 v).getLsbD (i + 1) = (v.getLsbD i ^^ v.msb) := by
  have hshift : (v <<< 1).getLsbD (i + 1) = v.getLsbD i := by
    rw [BitVec.getLsbD_shiftLeft, decide_eq_true hi, Nat.add_sub_cancel]
    simp
  by_cases h : v.msb = true
  · rw [zigzag64_of_msb h, BitVec.getLsbD_not, hshift, h, decide_eq_true hi, Bool.true_and, Bool.xor_true]
  · rw [zigzag64_of_not_msb h, hshift, Bool.eq_false_of_not_eq_true h, Bool.xor_false]

/-- In 64 bits `-v - 1` is the complement of `v` (R121). -/
theorem neg_sub_one_eq_not (v : Word) : -v - 1#64 = ~~~v := by
  have hlt : v.toNat < 2 ^ 64 := v.isLt
  bv_omega

/-- The recipe's shift with the low bit set is the complement of twice the pattern (R121). -/
theorem not_shiftLeft_or_one (v : Word) : (~~~v <<< 1) ||| 1#64 = ~~~(v <<< 1) := by
  apply BitVec.eq_of_getLsbD_eq
  intro k hk
  cases k with
  | zero => simp
  | succ k => simp [hk]

/-- The bit-level inverse undoes the bit-level transform (R132). -/
theorem unzigzagBits_zigzag64 (v : Word) : unzigzagBits (zigzag64 v) = v := by
  have hlt : v.toNat < 2 ^ 64 := v.isLt
  have hmsb : v.msb = true ↔ 2 ^ 63 ≤ v.toNat := by simp [BitVec.msb_eq_decide]
  have hones : (0xFFFFFFFFFFFFFFFF#64 : Word) = BitVec.allOnes 64 := by decide
  apply BitVec.eq_of_toNat_eq
  rw [unzigzagBits, getLsbD_zigzag64_zero, hones]
  split
  next h =>
    rw [zigzag64_of_msb h, BitVec.xor_allOnes, BitVec.toNat_not, toNat_shift, BitVec.toNat_not, BitVec.toNat_shiftLeft,
      Nat.shiftLeft_eq]
    rw [hmsb] at h
    omega
  next h =>
    rw [zigzag64_of_not_msb h, BitVec.xor_zero, toNat_shift, BitVec.toNat_shiftLeft, Nat.shiftLeft_eq]
    rw [hmsb] at h
    omega

end Sys2Proof.Machine
end

section
/-! PROOFS. The zigzag transform and its inverse (spec/42_encs.md R121 to R127, spec/43_properties_and_inverse.md R132,
R139, R140). -/

namespace Sys2Proof.Machine

/-- Settles O29: the bit-level form complements twice the pattern exactly when the number meant is negative. -/
theorem zigzagBitLevel : Obligations.ZigzagBitLevel := by
  intro v
  rw [← BitVec.msb_eq_getLsbD_last]
  refine ⟨zigzag64_eq_zigzagBits v, getLsbD_zigzag64_zero v, fun i hlow hhigh => ?_,
    fun hneg => ⟨neg_sub_one_eq_not v, ?_⟩⟩
  · obtain ⟨j, rfl⟩ := Nat.exists_eq_add_of_le' hlow
    exact getLsbD_zigzag64_succ v (Nat.lt_succ_of_le hhigh)
  · rw [neg_sub_one_eq_not, not_shiftLeft_or_one, zigzag64_of_msb hneg]

/-- Settles O31: the transform has an inverse, and is twice the magnitude less the sign. -/
theorem zigzagBijective : Obligations.ZigzagBijective :=
  ⟨⟨zigzag64_injective, zigzag64_surjective⟩,
    fun _ => ⟨toNat_zigzag64_natAbs_of_nonneg, toNat_zigzag64_natAbs_of_neg⟩⟩

/-- Settles O36: each way the inverse undoes the transform, which reaches every value. -/
theorem unzigzagInverse : Obligations.UnzigzagInverse := by
  refine ⟨unzigzag64_zigzag64, fun t => ⟨zigzag64_ofInt_unzigzag64 t, ?_, ?_⟩⟩
  · obtain ⟨v, rfl⟩ := zigzag64_surjective t
    rw [unzigzagBits_zigzag64, ofInt_unzigzag64_zigzag64]
  · obtain ⟨v, rfl⟩ := zigzag64_surjective t
    rw [unzigzag64_zigzag64]
    obtain ⟨hlow, hhigh⟩ := signed64_range v
    exact ⟨hlow, Int.le_sub_one_of_lt hhigh⟩

/-- Settles O40: both operations deliver the varint of the transformed value. -/
theorem operationsRelatedByTransform : Obligations.OperationsRelatedByTransform := by
  refine ⟨fun v => rfl, fun t => ?_⟩
  change varint t = varint (zigzag64 _)
  rw [zigzag64_ofInt_unzigzag64]

/-- The transform lies below `2 ^ (m + 1)` exactly when the number lies in the signed range of `m + 1` bits. -/
theorem toNat_zigzag64_lt_iff (v : Word) (m : Nat) :
    (zigzag64 v).toNat < 2 ^ (m + 1) ↔ -2 ^ m ≤ signed64 v ∧ signed64 v ≤ 2 ^ m - 1 := by
  have hpow : ((2 ^ m : Nat) : Int) = 2 ^ m := by push_cast; rfl
  rw [← hpow, Nat.pow_succ]
  rcases lt_or_ge (signed64 v) 0 with hneg | hnonneg
  · have hval := toNat_zigzag64_of_neg hneg
    omega
  · have hval := toNat_zigzag64_of_nonneg hnonneg
    omega

theorem nbytes_zigzag64_le_iff (v : Word) {n : Nat} (hn : 1 ≤ n) :
    nbytes (zigzag64 v) ≤ n ↔ -2 ^ (7 * n - 1) ≤ signed64 v ∧ signed64 v ≤ 2 ^ (7 * n - 1) - 1 := by
  have hbits : 7 * n = 7 * n - 1 + 1 := by omega
  rw [nbytes_le_iff _ hn, ← toNat_zigzag64_lt_iff, ← hbits]

/-- Settles O32: the length is at most `n` when `7n` bits hold the transform, and ten bytes are those that nine do not
hold. -/
theorem signedLength : Obligations.SignedLength := by
  intro v
  refine ⟨fun n hn _ => nbytes_zigzag64_le_iff v hn, ?_⟩
  have hnine := nbytes_zigzag64_le_iff v (n := 9) (by decide)
  have hten := nbytes_le_ten (zigzag64 v)
  rw [← hnine]
  omega

theorem nbytes_mono {t u : Word} (h : t.toNat ≤ u.toNat) : nbytes t ≤ nbytes u :=
  (nbytes_le_iff t (one_le_nbytes u)).2 (lt_of_le_of_lt h ((nbytes_le_iff u (one_le_nbytes u)).1 le_rfl))

/-- The transform is twice the magnitude, or one less. -/
theorem toNat_zigzag64_bounds (v : Word) :
    2 * (signed64 v).natAbs - 1 ≤ (zigzag64 v).toNat ∧ (zigzag64 v).toNat ≤ 2 * (signed64 v).natAbs := by
  rcases lt_or_ge (signed64 v) 0 with hneg | hnonneg
  · rw [toNat_zigzag64_natAbs_of_neg hneg]
    omega
  · rw [toNat_zigzag64_natAbs_of_nonneg hnonneg]
    omega

/-- The transform never puts a smaller magnitude above a greater one, whatever the signs. -/
theorem toNat_zigzag64_le_of_natAbs_lt {v w : Word} (h : (signed64 v).natAbs < (signed64 w).natAbs) :
    (zigzag64 v).toNat ≤ (zigzag64 w).toNat := by
  obtain ⟨-, hle⟩ := toNat_zigzag64_bounds v
  obtain ⟨hge, -⟩ := toNat_zigzag64_bounds w
  omega

/-- Settles O41: the length grows with the transformed value, and that with the magnitude. -/
theorem lengthIsMonotone : Obligations.LengthIsMonotone := by
  refine ⟨fun t u => nbytes_mono, fun v w h => ?_⟩
  change (varint (zigzag64 v)).length ≤ (varint (zigzag64 w)).length
  rw [length_varint, length_varint]
  exact nbytes_mono (toNat_zigzag64_le_of_natAbs_lt h)

end Sys2Proof.Machine
end

section
/-! SUPPORT. The last byte of a result (spec/30_encoding.md R69). -/

namespace Sys2Proof.Machine

/-- The last byte of a result holds what is left of the value, no continuation bit above it. -/
theorem toNat_varintAt_last (t : Word) :
    (varintAt t (nbytes t - 1)).toNat = t.toNat / 2 ^ (7 * (nbytes t - 1)) := by
  have hpos : 1 ≤ nbytes t := one_le_nbytes t
  have hfits : t.toNat < 2 ^ (7 * (nbytes t - 1 + 1)) := (nbytes_le_iff t (Nat.succ_pos _)).1 (by omega)
  have hgroup : t.toNat / 2 ^ (7 * (nbytes t - 1)) < 128 := by
    rw [Nat.mul_succ, Nat.pow_add] at hfits
    exact Nat.div_lt_of_lt_mul hfits
  rw [varintAt_last hfits, toNat_varintByte, toNat_group, Nat.mod_eq_of_lt hgroup]
  exact Nat.zero_add _

theorem varintAt_last_ne_zero {t : Word} (h : 2 ≤ nbytes t) : varintAt t (nbytes t - 1) ≠ 0x00#8 := by
  have hlast : 1 ≤ t.toNat / 2 ^ (7 * (nbytes t - 1)) :=
    (Nat.one_le_div_iff (Nat.two_pow_pos _)).2 (two_pow_le_of_two_le_nbytes h)
  rw [Ne, ← BitVec.toNat_inj, toNat_varintAt_last]
  exact Nat.ne_of_gt hlast

/-- In ten bytes nine groups hold 63 bits, so the last holds bit 63 alone. -/
theorem varintAt_last_of_ten {t : Word} (h : nbytes t = 10) : varintAt t 9 = 0x01#8 := by
  have hlow : 2 ^ (7 * (nbytes t - 1)) ≤ t.toNat := two_pow_le_of_two_le_nbytes (by omega)
  have hlast := toNat_varintAt_last t
  have hlt : t.toNat < 2 ^ 64 := t.isLt
  rw [h] at hlow hlast
  apply BitVec.eq_of_toNat_eq
  change (varintAt t 9).toNat = 1
  change (varintAt t 9).toNat = t.toNat / 2 ^ 63 at hlast
  omega

theorem getLast?_varint (t : Word) : (varint t).getLast? = some (varintAt t (nbytes t - 1)) := by
  have hpos : 1 ≤ nbytes t := one_le_nbytes t
  have hlast : (varint t).length - 1 < (varint t).length := by rw [length_varint]; omega
  rw [List.getLast?_eq_getElem?, List.getElem?_eq_getElem hlast, getElem_varint, length_varint]

end Sys2Proof.Machine
end

section
/-! SUPPORT. A list of bytes is determined by its continuation bits and the number it carries, and a well-formed one
carries a number as long as itself (spec/43_properties_and_inverse.md R131). -/

namespace Sys2Proof.Machine

theorem unvarint_lt (l : List Byte) : unvarint l < 2 ^ (7 * l.length) := by
  induction l with
  | nil => exact Nat.one_pos
  | cons b bs ih =>
    have hpayload : (b.setWidth 7).toNat < 2 ^ 7 := (b.setWidth 7).isLt
    rw [unvarint, List.length_cons, Nat.mul_succ, Nat.pow_add]
    omega

/-- Bit 7 of each byte from the one list, its payload from the number. -/
theorem eq_of_map_msb_eq_of_unvarint_eq {l m : List Byte} (hmsb : l.map BitVec.msb = m.map BitVec.msb)
    (hval : unvarint l = unvarint m) : l = m := by
  induction l generalizing m with
  | nil => exact (List.map_eq_nil_iff.1 hmsb.symm).symm
  | cons b bs ih =>
    cases m with
    | nil => cases hmsb
    | cons c cs =>
      obtain ⟨hhead, htail⟩ := List.cons.inj hmsb
      have hb : (b.setWidth 7).toNat < 2 ^ 7 := (b.setWidth 7).isLt
      have hc : (c.setWidth 7).toNat < 2 ^ 7 := (c.setWidth 7).isLt
      rw [unvarint, unvarint] at hval
      have hpayload : b.setWidth 7 = c.setWidth 7 := BitVec.eq_of_toNat_eq (by omega)
      have hbyte : b = c := by rw [byte_eq_varintByte b, byte_eq_varintByte c, hhead, hpayload]
      rw [hbyte, ih htail (by omega)]

/-- The continuation bits of a well-formed list depend on its length only. -/
theorem map_msb_of_wellformedResult {l : List Byte} (h : wellformedResult l) :
    l.map BitVec.msb = (List.range l.length).map fun i => decide (i + 1 < l.length) := by
  obtain ⟨-, hcont, -, -⟩ := h
  apply List.ext_getElem
  · simp
  · intro i hi _
    simp [hcont i (by simpa using hi)]

theorem wellformedResult_varint (t : Word) : wellformedResult (varint t) := by
  have hlast : (varint t)[(varint t).length - 1]? = some (varintAt t (nbytes t - 1)) := by
    rw [← List.getLast?_eq_getElem?, getLast?_varint]
  have hlength : (varint t).length = nbytes t := length_varint t
  refine ⟨?_, fun i hi => ?_, fun htwo => ?_, fun hten => ?_⟩
  · rw [hlength]
    exact ⟨one_le_nbytes t, nbytes_le_ten t⟩
  · rw [getElem_varint, hlength]
    exact msb_varintAt t i
  · rw [hlast, Ne, Option.some_inj]
    exact varintAt_last_ne_zero (hlength ▸ htwo)
  · have hn : nbytes t = 10 := hlength ▸ hten
    rw [hten, hn, varintAt_last_of_ten hn] at hlast
    exact hlast

/-- The last byte of a well-formed list, taken apart from the bytes before it. -/
theorem exists_append_last_of_wellformedResult {l : List Byte} (h : wellformedResult l) :
    ∃ m b, l = m ++ [b] ∧ m.length ≤ 9 ∧ b.msb = false ∧ (1 ≤ m.length → b ≠ 0x00#8) ∧ (m.length = 9 → b = 0x01#8) := by
  obtain ⟨⟨hpos, hten⟩, hcont, hnonzero, hone⟩ := h
  rcases List.eq_nil_or_concat' l with rfl | ⟨m, b, rfl⟩
  · exact absurd hpos (by decide)
  · have hlength : (m ++ [b]).length = m.length + 1 := by simp
    have hlast : (m ++ [b])[m.length]? = some b := by simp
    rw [hlength, Nat.add_sub_cancel, hlast] at hnonzero
    rw [hlength] at hten hone
    refine ⟨m, b, rfl, by omega, ?_, fun hm hzero => hnonzero (by omega) (by rw [hzero]), fun hm => ?_⟩
    · simpa using hcont m.length (by omega)
    · rw [hm] at hlast
      rw [hlast] at hone
      exact Option.some_inj.1 (hone (by omega))

theorem toNat_payload_of_msb_eq_false {b : Byte} (h : b.msb = false) : (b.setWidth 7).toNat = b.toNat := by
  rw [BitVec.toNat_setWidth, Nat.mod_eq_of_lt]
  exact BitVec.toNat_lt_of_msb_false h

/-- Nine groups and the bit in the tenth byte are 64 bits. -/
theorem unvarint_lt_of_wellformedResult {l : List Byte} (h : wellformedResult l) : unvarint l < 2 ^ 64 := by
  obtain ⟨m, b, rfl, hnine, -, -, hone⟩ := exists_append_last_of_wellformedResult h
  have hlow : unvarint m < 2 ^ (7 * m.length) := unvarint_lt m
  rcases hnine.lt_or_eq with hlt | heq
  · calc unvarint (m ++ [b]) < 2 ^ (7 * (m ++ [b]).length) := unvarint_lt _
      _ ≤ 2 ^ 64 := Nat.pow_le_pow_right (by decide) (by rw [List.length_append, List.length_singleton]; omega)
  · rw [heq] at hlow
    rw [unvarint_append, heq, hone heq]
    change unvarint m + 2 ^ 63 * 1 < 2 ^ 64
    change unvarint m < 2 ^ 63 at hlow
    omega

/-- The last byte of a well-formed list of two or more is needed, so the number is as long as the list. -/
theorem nbytes_of_wellformedResult {l : List Byte} (h : wellformedResult l) {t : Word} (ht : t.toNat = unvarint l) :
    nbytes t = l.length := by
  obtain ⟨m, b, rfl, -, hclear, hnonzero, -⟩ := exists_append_last_of_wellformedResult h
  have hlength : (m ++ [b]).length = m.length + 1 := by simp
  have hle : nbytes t ≤ m.length + 1 := by
    rw [← hlength, nbytes_le_iff t (by omega), ht]
    exact unvarint_lt _
  rw [hlength]
  rcases Nat.eq_zero_or_pos m.length with hzero | hpos
  · have := one_le_nbytes t
    omega
  · have hb : 0 < (b.setWidth 7).toNat := by
      rw [toNat_payload_of_msb_eq_false hclear, Nat.pos_iff_ne_zero]
      exact fun hzero => hnonzero hpos (BitVec.eq_of_toNat_eq hzero)
    have hge : ¬ nbytes t ≤ m.length := by
      rw [nbytes_le_iff t hpos, ht, unvarint_append, Nat.not_lt]
      calc 2 ^ (7 * m.length) ≤ 2 ^ (7 * m.length) * (b.setWidth 7).toNat := Nat.le_mul_of_pos_right _ hb
        _ ≤ unvarint m + 2 ^ (7 * m.length) * (b.setWidth 7).toNat := Nat.le_add_left _ _
    omega

/-- A well-formed list is the result of the number it carries. -/
theorem eq_varint_of_wellformedResult {l : List Byte} (h : wellformedResult l) :
    l = varint (BitVec.ofNat 64 (unvarint l)) := by
  have hval : (BitVec.ofNat 64 (unvarint l)).toNat = unvarint l :=
    Nat.mod_eq_of_lt (unvarint_lt_of_wellformedResult h)
  have hlength : (varint (BitVec.ofNat 64 (unvarint l))).length = l.length := by
    rw [length_varint, nbytes_of_wellformedResult h hval]
  apply eq_of_map_msb_eq_of_unvarint_eq
  · rw [map_msb_of_wellformedResult h, map_msb_of_wellformedResult (wellformedResult_varint _), hlength]
  · rw [unvarint_varint, hval]

theorem wellformedResult_iff (l : List Byte) : wellformedResult l ↔ ∃ t, l = varint t := by
  constructor
  · exact fun h => ⟨_, eq_varint_of_wellformedResult h⟩
  · rintro ⟨t, rfl⟩
    exact wellformedResult_varint t

theorem varint_injective : Function.Injective varint := by
  intro t u h
  apply BitVec.eq_of_toNat_eq
  rw [← unvarint_varint, h, unvarint_varint]

theorem range_varint : Set.range varint = { l | wellformedResult l } := by
  ext l
  exact (exists_congr fun t => eq_comm).trans (wellformedResult_iff l).symm

end Sys2Proof.Machine
end

section
/-! PROOFS. Results as byte lists (spec/30_encoding.md R69, spec/43_properties_and_inverse.md R131, R138). -/

namespace Sys2Proof.Machine

/-- Settles O35: the list determines its value by `unvarint`, and a well-formed list has the length, the continuation
bits and the number of the result of that value. -/
theorem wellformedExactlyResults : Obligations.WellformedExactlyResults := by
  refine fun l => ⟨wellformedResult_iff l, ?_⟩
  rintro t rfl
  exact (unvarint_varint t).symm

/-- Settles O39: `ENCU` is the varint itself, and `ENCS` the varint after a bijection. -/
theorem operationsAreBijections : Obligations.OperationsAreBijections :=
  ⟨varint_injective, varint_injective.comp zigzag64_injective, range_varint,
    (zigzag64_surjective.range_comp varint).trans range_varint⟩

/-- Settles O34: the last byte holds the highest group, which is zero for `t = 0` only. -/
theorem minimalForm : Obligations.MinimalForm := by
  intro t
  rw [getLast?_varint, length_varint, Option.some_inj, Option.some_inj, Ne, Option.some_inj]
  refine ⟨varintAt_last_ne_zero, fun hzero => ?_, fun hten => ?_⟩
  · have hpos : 1 ≤ nbytes t := one_le_nbytes t
    have hone : nbytes t = 1 := by
      have := mt varintAt_last_ne_zero (not_not_intro hzero)
      omega
    have hvarint : varint t = [0x00#8] := by rw [varint, hone, ← hzero, hone]; rfl
    have hvalue : t.toNat = 0 := by rw [← unvarint_varint, hvarint]; rfl
    exact ⟨BitVec.eq_of_toNat_eq hvalue, hvarint⟩
  · rw [hten]
    exact varintAt_last_of_ten hten

end Sys2Proof.Machine
end

section
/-! SUPPORT. What a block that carries a command holds, by the count of bytes written, and which edge it takes
(spec/40_packer_and_sequencer.md R97, R98). -/

namespace Sys2Proof.Machine

theorem Block.Encoding.phase_eq {b : Block} {t : Word} (h : b.Encoding t) : b.phase = .run := by
  obtain ⟨hrun, -⟩ := h
  exact hrun

theorem Block.Showing.phase_eq {b : Block} {t : Word} (h : b.Showing t) : b.phase = .done := by
  obtain ⟨hdone, -⟩ := h
  exact hdone

section
variable {b : Block} {t : Word} (h : b.Carries t)
include h

theorem Block.Carries.len_le_nbytes : b.len.val ≤ nbytes t := by
  rcases h with henc | ⟨-, hlen, -⟩
  · exact henc.len_lt_nbytes.le
  · exact hlen.le

/-- The working value is what is left of `t` after the bytes written (R97). -/
theorem Block.Carries.w_eq : b.w = t >>> (7 * b.len.val) := by
  rcases h with ⟨-, -, hw, -⟩ | ⟨-, hlen, hw, -⟩
  · exact hw
  · rw [hw, hlen, shift_seven_mul_nbytes]

/-- The bytes below `LEN` are those of the result, the others are zero (R97). -/
theorem Block.Carries.getElem_buf {i : Nat} (hi : i < 10) :
    b.buf[i] = if i < b.len.val then varintAt t i else 0x00#8 := by
  rcases h with henc | ⟨-, hlen, -, hbuf⟩
  · have hlt : b.len.val < nbytes t := henc.len_lt_nbytes
    obtain ⟨-, -, -, hbuf, -⟩ := henc
    rw [hbuf i hi]
    split
    next hbelow => rw [varintAt_of_lt (by omega)]
    next => rfl
  · rw [hbuf i hi, hlen]

theorem Block.Carries.encoding_of_lt (hlt : b.len.val < nbytes t) : b.Encoding t := by
  rcases h with henc | ⟨-, hlen, -⟩
  · exact henc
  · exact absurd hlen hlt.ne

theorem Block.Carries.showing_of_eq (heq : b.len.val = nbytes t) : b.Showing t := by
  rcases h with henc | hshow
  · exact absurd heq henc.len_lt_nbytes.ne
  · exact hshow

end

/-- An accept step loads the transformed value of its command (R92). -/
theorem step_of_accepts {s : State} (hacc : s.accepts = true) :
    step s = .next (s.tick.load (transformed s.input.cmdOp s.input.cmdValue)) := by
  obtain ⟨hrst, hidle, hvalid⟩ := (accepts_iff s).1 hacc
  exact step_accept hrst hidle hvalid

theorem State.NoReset.mono {s : State} {m n : Nat} (h : s.NoReset n) (hle : m ≤ n) : s.NoReset m :=
  fun k hk => h k (Nat.lt_of_lt_of_le hk hle)

theorem State.NoReset.of_step {s u : State} {n : Nat} (h : s.NoReset (n + 1)) (hstep : step s = .next u) :
    u.NoReset n := by
  intro k hk
  rw [step_inputAt hstep]
  exact h (k + 1) (Nat.succ_lt_succ hk)

/-- Each edge without reset writes one byte of the result, as long as one is due (R93). -/
theorem exists_reaches_carries {s : State} {t : Word} (hcarries : s.Carries t) (hzero : s.len.val = 0) {k : Nat}
    (hk : k ≤ nbytes t) (hrst : s.NoReset k) : ∃ u, Reaches k s u ∧ u.Carries t ∧ u.len.val = k := by
  induction k with
  | zero => exact ⟨s, reaches_zero.2 rfl, hcarries, hzero⟩
  | succ k ih =>
    obtain ⟨v, hreach, hvcarries, hvlen⟩ := ih (Nat.le_of_succ_le hk) (hrst.mono (Nat.le_succ k))
    have henc : v.Encoding t := hvcarries.encoding_of_lt (hvlen ▸ hk)
    have hfree : v.tick.len.val < 10 := Nat.lt_succ_of_le henc.len_le_nine
    have hinput : v.input = s.inputAt k := hreach.inputAt 0
    have hvrst : v.input.rst = false := by rw [hinput]; exact hrst k (Nat.lt_succ_self k)
    refine ⟨v.tick.emit hfree, reaches_succ_last.2 ⟨v, hreach, step_run hvrst henc.phase_eq hfree⟩,
      State.emit_carries (s := v.tick) hfree henc, ?_⟩
    rw [State.emit_len, State.tick_toBlock, hvlen]

/-- After the accept step and `k` run steps `k` bytes of the result are written (R97). -/
theorem exists_reaches_of_accepts {s : State} {t : Word} (hacc : s.accepts = true)
    (ht : t = transformed s.input.cmdOp s.input.cmdValue) {k : Nat} (hk : k ≤ nbytes t) (hrst : s.NoReset (k + 1)) :
    ∃ u, Reaches (k + 1) s u ∧ u.Carries t ∧ u.len.val = k := by
  have hstep : step s = .next (s.tick.load t) := ht ▸ step_of_accepts hacc
  obtain ⟨u, hreach, hcarries, hlen⟩ :=
    exists_reaches_carries (.inl (State.load_encoding t s.tick)) rfl hk (hrst.of_step hstep)
  exact ⟨u, reaches_succ_iff.2 ⟨_, hstep, hreach⟩, hcarries, hlen⟩

/-- At the edges of its run a command has a byte due (R98). -/
theorem exists_reaches_encoding {s : State} {t : Word} (hacc : s.accepts = true)
    (ht : t = transformed s.input.cmdOp s.input.cmdValue) (hrst : s.NoReset (nbytes t + 1)) {k : Nat} (hpos : 1 ≤ k)
    (hk : k ≤ nbytes t) : ∃ u, Reaches k s u ∧ u.Encoding t := by
  obtain ⟨j, rfl⟩ := Nat.exists_eq_add_of_le' hpos
  obtain ⟨u, hreach, hcarries, hlen⟩ :=
    exists_reaches_of_accepts hacc ht (Nat.le_of_succ_le hk) (hrst.mono (Nat.le_succ_of_le hk))
  exact ⟨u, hreach, hcarries.encoding_of_lt (hlen ▸ hk)⟩

/-- After its run the result of a command is shown (R99). -/
theorem exists_reaches_showing {s : State} {t : Word} (hacc : s.accepts = true)
    (ht : t = transformed s.input.cmdOp s.input.cmdValue) (hrst : s.NoReset (nbytes t + 1)) :
    ∃ u, Reaches (nbytes t + 1) s u ∧ u.Showing t := by
  obtain ⟨u, hreach, hcarries, hlen⟩ := exists_reaches_of_accepts hacc ht le_rfl hrst
  exact ⟨u, hreach, hcarries.showing_of_eq hlen⟩

end Sys2Proof.Machine
end

section
/-! SUPPORT. What a block that shows a result has on its ports (spec/10_state.md R29, spec/30_encoding.md R67). -/

namespace Sys2Proof.Machine

section
variable {b : Block} {t : Word} (h : b.Showing t)
include h

theorem Block.Showing.lane_rspData {i : Nat} (hi : i < 10) :
    lane b.rspData i = if i < nbytes t then varintAt t i else 0x00#8 := by
  obtain ⟨hdone, -, -, hbuf⟩ := h
  rw [Block.rspData_of_done hdone, b.lane_bus hi, hbuf i hi]

theorem Block.Showing.shows : b.Shows (varint t) := by
  have hlen : b.rspLen.toNat = nbytes t := h.rspLen_toNat
  refine ⟨(rspValid_iff b).2 h.phase_eq, by rw [hlen, length_varint], fun i hi => ?_⟩
  rw [h.lane_rspData hi]
  split
  next hin =>
    have hin' : i < (varint t).length := by rwa [length_varint]
    rw [List.getElem?_eq_getElem hin', getElem_varint, Option.getD_some]
  next hout =>
    rw [List.getElem?_eq_none (by rw [length_varint]; omega), Option.getD_none]

theorem Block.Showing.shownBytes : b.shownBytes = varint t := by
  rw [Block.shownBytes, h.rspLen_toNat, varint]
  refine List.map_congr_left fun i hi => ?_
  have hlt : i < nbytes t := List.mem_range.1 hi
  rw [h.lane_rspData (Nat.lt_of_lt_of_le hlt (nbytes_le_ten t)), if_pos hlt]

end

/-- A result bus is determined by its lanes. -/
theorem eq_of_lane_eq {d e : BitVec 80} (h : ∀ i < 10, lane d i = lane e i) : d = e := by
  apply BitVec.eq_of_toNat_eq
  rw [toNat_eq_sum_lanes d, toNat_eq_sum_lanes e]
  exact congrArg List.sum (List.map_congr_left fun i hi => by rw [h i (List.mem_range.1 hi)])

/-- The byte list shown determines both result ports. -/
theorem Block.Shows.ports_eq {b c : Block} {l : List Byte} (hb : b.Shows l) (hc : c.Shows l) :
    b.rspLen = c.rspLen ∧ b.rspData = c.rspData := by
  obtain ⟨-, hblen, hblanes⟩ := hb
  obtain ⟨-, hclen, hclanes⟩ := hc
  exact ⟨BitVec.eq_of_toNat_eq (hblen.trans hclen.symm),
    eq_of_lane_eq fun i hi => (hblanes i hi).trans (hclanes i hi).symm⟩

/-- The result of a command is the varint of its transformed value (R110, R125). -/
theorem resultOf_eq_varint (op : BitVec 1) (v : Word) : resultOf op v = varint (transformed op v) := by
  rw [resultOf, transformed]
  split
  next => rfl
  next => rfl

end Sys2Proof.Machine
end

section
/-! PROOFS. The invariant of the reachable state (spec/10_state.md R30 to R33). -/

namespace Sys2Proof.Machine

/-- The invariant says that a block that is not idle carries some command. -/
theorem Block.inv_iff (b : Block) : b.Inv ↔ b.phase = .idle ∨ ∃ t, b.Carries t := by
  constructor
  · intro h
    cases hphase : b.phase with
    | idle => exact .inl rfl
    | run =>
      obtain ⟨t, henc⟩ := h.exists_encoding hphase
      exact .inr ⟨t, .inl henc⟩
    | done =>
      obtain ⟨t, hshow⟩ := h.exists_showing hphase
      exact .inr ⟨t, .inr hshow⟩
  · rintro (hidle | ⟨t, henc | hshow⟩)
    · rw [Block.Inv, hidle]
      trivial
    · rw [Block.Inv, henc.phase_eq]
      exact ⟨t, henc⟩
    · rw [Block.Inv, hshow.phase_eq]
      exact ⟨t, hshow⟩

theorem Block.inv_of_idle {b : Block} (h : b.phase = .idle) : b.Inv := (Block.inv_iff b).2 (.inl h)

/-- Settles O42: the reset state is idle. -/
theorem resetMeetsInvariant : Obligations.ResetMeetsInvariant :=
  ⟨Block.inv_of_idle rfl, fun _ => Block.inv_of_idle rfl⟩

/-- Settles O43: a step that does not end in `IDLE` accepts a command, which the block then carries, or keeps what the
block carries. -/
theorem everyStepKeepsInvariant : Obligations.EveryStepKeepsInvariant := by
  intro s u hinv hstep
  refine (Block.inv_iff _).2 (or_iff_not_imp_left.2 fun hbusy => ?_)
  rcases step_carries hstep hbusy with ⟨-, hcarries⟩ | ⟨hsbusy, hkeeps⟩
  · exact ⟨_, hcarries⟩
  · obtain ⟨t, hcarries⟩ := ((Block.inv_iff _).1 hinv).resolve_left hsbusy
    exact ⟨t, hkeeps t hcarries⟩

/-- Settles O44: the one refusal is that of a run step with no free place, which the invariant excludes. -/
theorem noStepStops : Obligations.NoStepStops := by
  intro s hinv
  cases hrst : s.input.rst with
  | true => exact ⟨_, step_reset hrst⟩
  | false =>
    cases hphase : s.phase with
    | idle =>
      cases hvalid : s.input.cmdValid with
      | true => exact ⟨_, step_accept hrst hphase hvalid⟩
      | false => exact ⟨_, step_idle hrst hphase hvalid⟩
    | run =>
      obtain ⟨t, henc⟩ := Block.Inv.exists_encoding hinv hphase
      exact ⟨_, step_run hrst hphase (Nat.lt_succ_of_le henc.len_le_nine)⟩
    | done =>
      cases hready : s.input.rspReady with
      | true => exact ⟨_, step_retire hrst hphase hready⟩
      | false => exact ⟨_, step_hold hrst hphase hready⟩

/-- Settles O45: the reset state meets the invariant, under which each step has a next state and keeps it. -/
theorem everyRunGoesOn : Obligations.EveryRunGoesOn := by
  intro ins k
  induction k with
  | zero => exact ⟨_, reaches_zero.2 rfl, Block.inv_of_idle rfl⟩
  | succ k ih =>
    obtain ⟨v, hreach, hinv⟩ := ih
    obtain ⟨u, hstep⟩ := noStepStops v hinv
    exact ⟨u, reaches_succ_last.2 ⟨v, hreach, hstep⟩, everyStepKeepsInvariant v u hinv hstep⟩

/-- In `RUN` the working value has lost seven bits for each byte written. -/
theorem Block.Encoding.toNat_w_lt {b : Block} {t : Word} (h : b.Encoding t) :
    b.w.toNat < 2 ^ (64 - 7 * b.len.val) := by
  have hnine : b.len.val ≤ 9 := h.len_le_nine
  obtain ⟨-, -, hw, -⟩ := h
  rw [hw, toNat_shift]
  apply Nat.div_lt_of_lt_mul
  rw [← Nat.pow_add, Nat.add_sub_cancel' (by omega)]
  exact t.isLt

/-- Settles O46: after nine bytes one bit is left, so nothing is left after the tenth. -/
theorem runNeverOverfillsBuffer : Obligations.RunNeverOverfillsBuffer := by
  intro s hinv hrun
  obtain ⟨t, henc⟩ := Block.Inv.exists_encoding hinv hrun
  have hbits : s.w.toNat < 2 ^ (64 - 7 * s.len.val) := henc.toNat_w_lt
  refine ⟨henc.len_le_nine, hbits, fun hnine hrst => ?_⟩
  have hfree : s.tick.len.val < 10 := Nat.lt_succ_of_le henc.len_le_nine
  have hnothing : s.w >>> 7 = 0#64 := by
    rw [hnine] at hbits
    exact (shift_eq_zero_iff s.w 7).2 (Nat.lt_trans hbits (by decide))
  refine ⟨_, step_run hrst hrun hfree, ?_, ?_, ?_⟩
  · rw [State.emit_len, State.tick_toBlock, hnine]
  · rw [State.emit_phase_eq, State.tick_toBlock, if_neg (not_not_intro hnothing)]
  · rw [State.getElem_emit_buf, State.tick_toBlock, if_pos hnine.symm, Packed.byte, pack_c,
      if_neg (not_not_intro hnothing)]
    rfl

end Sys2Proof.Machine
end

section
/-! PROOFS. Whole commands (spec/40_packer_and_sequencer.md R97 to R102, spec/60_exceptions.md R163). -/

namespace Sys2Proof.Machine

/-- From the load of a value its varint is shown after as many run steps as it has bytes. -/
theorem exists_reaches_shows_of_load (t : Word) (s : State) (hrst : s.NoReset (nbytes t)) :
    ∃ u, Reaches (nbytes t) (s.load t) u ∧ u.Shows (varint t) := by
  obtain ⟨u, hreach, hcarries, hlen⟩ :=
    exists_reaches_carries (.inl (State.load_encoding t s)) rfl le_rfl (s := s.load t) hrst
  exact ⟨u, hreach, (hcarries.showing_of_eq hlen).shows⟩

/-- Settles O48: the accept step loads the operand, and the run steps write its bytes. -/
theorem encuDeliversVarint : Obligations.EncuDeliversVarint := by
  intro v s hidle hrst
  obtain ⟨u, hrun⟩ := exists_reaches_shows_of_load v s hrst
  exact ⟨s.load v, u, accept_idle hidle, hrun⟩

/-- Settles O49: the accept step loads the transform of the operand, and the run steps write its bytes. -/
theorem encsDeliversVarint : Obligations.EncsDeliversVarint := by
  intro v s hidle hrst
  obtain ⟨u, hrun⟩ := exists_reaches_shows_of_load (zigzag64 v) s hrst
  exact ⟨s.load (zigzag64 v), u, accept_idle hidle, hrun⟩

/-- Settles O50: while the block carries the command, `LEN` tells what is written and what is left. -/
theorem workingValueDuringCommand : Obligations.WorkingValueDuringCommand := by
  intro s t k hacc ht hk hrst
  obtain ⟨u, hreach, hcarries, hlen⟩ := exists_reaches_of_accepts hacc ht hk hrst
  refine ⟨u, hreach, by rw [hcarries.w_eq, hlen], hlen, fun j hj hjk => ?_⟩
  rw [hcarries.getElem_buf hj, hlen, if_pos hjk, varintAt]

/-- Settles O51: a byte is due at each edge of the run, and none after `nbytes t` of them. -/
theorem terminatesWithinTenSteps : Obligations.TerminatesWithinTenSteps := by
  intro s t hacc ht hrst
  refine ⟨⟨one_le_nbytes t, nbytes_le_ten t⟩, fun k hpos hk => ?_, ?_⟩
  · obtain ⟨u, hreach, hrun, -⟩ := exists_reaches_encoding hacc ht hrst hpos hk
    exact ⟨u, hreach, hrun⟩
  · obtain ⟨u, hreach, hdone, -⟩ := exists_reaches_showing hacc ht hrst
    exact ⟨u, hreach, hdone⟩

/-- Settles O52: a block in `RUN` shows nothing, and one in `DONE` holds what it shows. -/
theorem resultOfCommand : Obligations.ResultOfCommand := by
  intro s t hacc ht hrst
  refine ⟨fun k hpos hk => ?_, fun m hheld => ?_⟩
  · obtain ⟨u, hreach, hrun, -⟩ := exists_reaches_encoding hacc ht hrst hpos hk
    have hnotDone : u.phase ≠ .done := by rw [hrun]; decide
    have hnotIdle : u.phase ≠ .idle := by rw [hrun]; decide
    exact ⟨u, hreach, Block.showsNothing_of_not_done hnotDone,
      Bool.eq_false_of_not_eq_true (mt (cmdReady_iff _).1 hnotIdle)⟩
  · obtain ⟨u, hreach, hshow⟩ := exists_reaches_showing hacc ht hrst
    have huheld : ∀ k < m, (u.inputAt k).rst = false ∧ (u.inputAt k).rspReady = false := by
      intro k hk
      rw [hreach.inputAt]
      exact hheld _ (by omega) (by omega)
    obtain ⟨u', hreach', hblock⟩ := exists_reaches_held hshow.phase_eq huheld
    refine ⟨u', hreach.trans hreach', ?_⟩
    rw [hblock]
    exact hshow.shows

/-- Once the host takes a result that is shown the block is idle (R94). -/
theorem exists_reaches_retired {s u : State} {m : Nat} (hreach : Reaches m s u) (hdone : u.phase = .done)
    (hrst : (s.inputAt m).rst = false) (hready : (s.inputAt m).rspReady = true) :
    ∃ u', Reaches (m + 1) s u' ∧ u'.phase = .idle := by
  have hinput : u.input = s.inputAt m := hreach.inputAt 0
  rw [← hinput] at hrst hready
  exact ⟨u.tick.retire, reaches_succ_last.2 ⟨u, hreach, step_retire hrst hdone hready⟩, State.retire_phase _⟩

/-- While a command is in hand no other is accepted. -/
theorem Block.Carries.accepts_eq_false {s : State} {t : Word} (h : s.Carries t) : s.accepts = false :=
  accepts_eq_false_of_phase_ne_idle h.phase_ne_idle

/-- Settles O53: the block is in `RUN`, then in `DONE`, where the result is taken at once, and then in `IDLE`. -/
theorem spacingOfAccepts : Obligations.SpacingOfAccepts := by
  intro s t hacc ht hheld
  have hrst : s.NoReset (nbytes t + 1) := fun k hk => (hheld k (by omega)).1
  obtain ⟨d, hreach, hshow⟩ := exists_reaches_showing hacc ht hrst
  refine ⟨fun k hpos hk => ?_, ?_⟩
  · rcases Nat.lt_succ_iff_lt_or_eq.1 hk with hlt | rfl
    · obtain ⟨u, hureach, henc⟩ := exists_reaches_encoding hacc ht hrst hpos (Nat.le_of_lt_succ hlt)
      exact ⟨u, hureach, Block.Carries.accepts_eq_false (.inl henc)⟩
    · exact ⟨d, hreach, Block.Carries.accepts_eq_false (.inr hshow)⟩
  · obtain ⟨hdrst, -, hdready⟩ := hheld (nbytes t + 1) (by omega)
    obtain ⟨u, hureach, hidle⟩ := exists_reaches_retired hreach hshow.phase_eq hdrst hdready
    have hinput : u.input = s.inputAt (nbytes t + 2) := hureach.inputAt 0
    obtain ⟨hurst, hvalid, -⟩ := hheld (nbytes t + 2) le_rfl
    rw [← hinput] at hurst hvalid
    exact ⟨u, hureach, (accepts_iff u).2 ⟨hurst, hidle, hvalid⟩⟩

/-- Settles O54: the block is held in `DONE`, and the first `rsp_ready` retires the result. -/
theorem doneWaitsForTheHost : Obligations.DoneWaitsForTheHost := by
  intro s m hdone hheld
  obtain ⟨u, hreach, hblock⟩ := exists_reaches_held hdone hheld
  exact ⟨u, hreach, hblock, exists_reaches_retired hreach (by rw [hblock, hdone])⟩

/-- Commands with the same word are the same command. -/
theorem Input.transformed_eq_of_word_eq {i j : Input} (h : i.word = j.word) :
    transformed i.cmdOp i.cmdValue = transformed j.cmdOp j.cmdValue := by
  have hop : i.cmdOp = j.cmdOp := by
    rw [← opField_cmdWord i.cmdOp i.cmdValue, ← Input.word, h, Input.word, opField_cmdWord]
  have hvalue : i.cmdValue = j.cmdValue := by
    rw [← valueField_cmdWord i.cmdOp i.cmdValue, ← Input.word, h, Input.word, valueField_cmdWord]
  rw [hop, hvalue]

/-- Settles O55: both states show the varint of the transformed value, which the command word determines. -/
theorem resultDependsOnCommandOnly : Obligations.ResultDependsOnCommandOnly := by
  intro s s' hacc hacc' hword hrst hrst'
  obtain ⟨u, hreach, hshow⟩ := exists_reaches_showing hacc rfl hrst
  obtain ⟨u', hreach', hshow'⟩ := exists_reaches_showing hacc' (Input.transformed_eq_of_word_eq hword) hrst'
  exact ⟨u, u', hreach, hreach', (rspValid_iff _).2 hshow.phase_eq, (rspValid_iff _).2 hshow'.phase_eq,
    hshow.shows.ports_eq hshow'.shows⟩

/-- No accept step comes after the last one. -/
theorem LastAccept.le {s₀ s s' : State} {k j j' : Nat} (h : LastAccept s₀ k j s) (h' : LastAccept s₀ k j' s') :
    j' ≤ j := by
  obtain ⟨-, -, -, hnone⟩ := h
  obtain ⟨hlt, hreach, hacc, -⟩ := h'
  refine Nat.not_lt.1 fun hafter => ?_
  rw [hnone j' s' hafter hlt hreach] at hacc
  cases hacc

/-- Settles O56: a block in `DONE` carries the command last accepted, and so its result is on the ports. -/
theorem portsShowTheAcceptedCommand : Obligations.PortsShowTheAcceptedCommand := by
  intro ins k u hreach
  refine ⟨fun hvalid => ?_, fun hvalid => ?_⟩
  · have hdone : u.phase = .done := (rspValid_iff _).1 hvalid
    have hbusy : u.phase ≠ .idle := by rw [hdone]; decide
    obtain ⟨j, s, hlast, hcarries⟩ := hreach.exists_lastAccept_carries rfl hbusy
    have hshow : u.Showing (transformed s.input.cmdOp s.input.cmdValue) := hcarries.showing hdone
    obtain ⟨hlt, hat, hacc, hnone⟩ := id hlast
    refine ⟨j, ⟨hlt, s, hat, hacc, hnone, ?_, ?_, ?_, fun i hlen hi => ?_⟩, ?_⟩
    · rw [hshow.shownBytes, resultOf_eq_varint]
    · rw [hshow.shownBytes]
      exact wellformedResult_varint _
    · rw [hshow.shownBytes, unvarint_varint]
    · rw [hshow.rspLen_toNat] at hlen
      rw [hshow.lane_rspData hi, if_neg (Nat.not_lt.2 hlen)]
    · rintro j' ⟨hlt', s', hat', hacc', hnone', -⟩
      have hlast' : LastAccept (State.launched ins) k j' s' := ⟨hlt', hat', hacc', hnone'⟩
      exact le_antisymm (hlast.le hlast') (hlast'.le hlast)
  · have hnotDone : u.phase ≠ .done := mt (rspValid_iff _).2 (ne_true_of_eq_false hvalid)
    obtain ⟨-, hlen, hdata⟩ := Block.showsNothing_of_not_done hnotDone
    exact ⟨hlen, hdata⟩

end Sys2Proof.Machine
end
